-- ==== Sys2Proof/Word.lean ====
section
/-! DEFINITION. The one word type of the core: an unsigned byte (spec 00_scope.md R6, 10_state.md R10, R20). -/

namespace Sys2Proof

/-- A byte: the width `XLEN` = 8 of a register, a memory cell and an instruction byte (R5, R6). -/
abbrev Byte := BitVec 8

/-- `v mod 256` of a mathematical integer (R6): the one place where a wider number is narrowed to a byte. -/
def Byte.narrow (v : Nat) : Byte := BitVec.ofNat 8 v

end Sys2Proof
end

