-- ==== Sys2Proof/Config.lean ====
section
/-! DEFINITION. The implementation parameters of spec 00_scope.md R5, each at the value the table there gives it.
The opcode bytes and widths are in Decode.lean, the exit codes in Machine/Flags.lean, and the memory image is an
argument of `load` in Machine/Env.lean. The spec leaves no value open that a step needs, so no constant here is opaque. -/

namespace Sys2Proof

/-- `NREGS`: the number of general registers (R5, R10). -/
def Config.nRegs : Nat := 8

/-- `SP_RESET`: the value of register 7 after reset (R5, R12). -/
def Config.spReset : Byte := 0xF4#8

/-- `GPR_RESET`: the value of registers 0 to 6 after reset (R5, R24; the spec's decision D2, log entry 5). -/
def Config.gprReset : Byte := 0x00#8

/-- `MEM_SIZE`: the number of memory cells (R5, R20). -/
def Config.memSize : Nat := 256

/-- `MEM_RESET`: what every memory cell holds after reset, hence what an unlisted address reads as (R5, R20, R24). -/
def Config.memReset : Byte := 0x00#8

/-- `PC_RESET`: the program counter after reset (R5, R15). -/
def Config.pcReset : Nat := 0

/-- `LOAD_BASE`: where the Loader puts the first program byte (R5, R131). -/
def Config.loadBase : Nat := 0

end Sys2Proof
end

