-- ==== Sys2Proof/Syntax.lean ====
section
/-! DEFINITION. The instructions, the formats of the opcode table, the spec's assembler lines and the names the ALU
entry point is called with (spec 30_encoding.md R50 to R60, 42_mul_alu.md R87). -/

namespace Sys2Proof

/-- The six rows of the opcode table (R55). A register operand is the whole byte at `pc+1` (R53), legal or not: the
handler checks it. `mul` has no operand: its two further bytes are neither read nor interpreted (R53, R85). -/
inductive Instr where
  | ldi (reg imm : Byte)
  | prn (reg : Byte)
  | mul
  | push (reg : Byte)
  | pop (reg : Byte)
  | hlt
  deriving DecidableEq, Repr

/-- The mnemonics of the opcode table (R55). -/
inductive Mnemonic where
  | LDI | PRN | MUL | PUSH | POP | HLT
  deriving DecidableEq, Repr

/-- The four instruction formats (R51): `OP`, `OP_R`, `OP_R_I` and `OP_X_X`. -/
inductive Format where
  | op | opR | opRI | opXX
  deriving DecidableEq, Repr

/-- One row of the dispatch table: the mnemonic, the whole opcode byte it matches (R56) and its format. -/
structure OpRow where
  mnemonic : Mnemonic
  code : Byte
  format : Format
  deriving DecidableEq, Repr

/-- The mnemonic of an instruction. -/
def Instr.mnemonic : Instr → Mnemonic
  | .ldi _ _ => .LDI
  | .prn _ => .PRN
  | .mul => .MUL
  | .push _ => .PUSH
  | .pop _ => .POP
  | .hlt => .HLT

/-- The lines of the spec's assembler notation (R60): the six mnemonics, `MUL b1, b2` with its ignored bytes written
out, and the directive `.byte v`. A register number is 0 to 7 by its type. -/
inductive AsmLine where
  | ldi (n : Fin 8) (v : Byte)
  | prn (n : Fin 8)
  | mul
  | mulWith (b1 b2 : Byte)
  | push (n : Fin 8)
  | pop (n : Fin 8)
  | hlt
  | byte (v : Byte)
  deriving DecidableEq, Repr

/-- An operation name given to the ALU entry point: the supported `ADD`, or any other name (R87). That another name
differs from `ADD` is carried by the value, so each name is written in one way. -/
inductive AluOp where
  | add
  | other (name : String) (differs : name ≠ "ADD")
  deriving DecidableEq, Repr

end Sys2Proof
end

