-- ==== Sys2Proof/Machine/State.lean ====
section
/-! DEFINITION. The state of the core as plain data, and the state after reset (spec 10_state.md). -/

namespace Sys2Proof.Machine

/-- The space tag of an `OutOfBounds` fault: `MEM` or `REG` (R18, R111). -/
inductive Space where
  | mem | reg
  deriving DecidableEq, Repr

/-- The faults of the core with the information each records in `FAULT` (R18, R111): the spec's three kinds. Taking one
is a next state, not a stop of the model (log entry 3). -/
inductive FaultRecord where
  /-- `UnknownInstruction(opcode, address)`, raised by the step's membership check (R72, R113). -/
  | unknownInstruction (opcode : Byte) (address : Nat)
  /-- `OutOfBounds(space, index)`, raised by `memRead`, `memWrite` and `regIndex` (R13, R31, R114). -/
  | outOfBounds (space : Space) (index : Nat)
  /-- `UnsupportedOperation(name)`, raised by the ALU entry point only (R89, R117). -/
  | unsupportedOperation (name : String)
  deriving DecidableEq, Repr

/-- Memory as a list of cells. The canonical form is `Memory.wf` in Ops.lean; an unlisted address reads as
`Config.memReset`. -/
abbrev Memory := List Host.Cell

/-- The whole state of the core: the State tuple of 10_state.md. -/
structure State where
  /-- `x[0..7]` (R10); entry 7 is the stack pointer (R12). -/
  regs : Vector Byte 8
  /-- The program counter: an unsigned integer that never wraps (R15, R16; log entry 2). -/
  pc : Nat
  /-- `RUN`, the Running Flag (R17). -/
  run : Bool
  /-- `FAULT`, the fault record (R18). -/
  fault : Option FaultRecord
  /-- `M[0..255]` (R20). -/
  mem : Memory
  /-- `OUT`, the bytes `PRN` has emitted, oldest first (R22). -/
  out : List Byte
  deriving DecidableEq, Repr

/-- Why `step` answers no next state. Neither is an error of the model: the spec defines no step on a stopped core
(R70), and the state stays as it is (D19). Safe: nothing can be claimed of a next state there is none of. -/
inductive Fault where
  /-- Raised by `step` alone, when `HLT` has cleared `RUN` and no fault is recorded (R70, R101). Safe. -/
  | halted
  /-- Raised by `step` alone, when `FAULT` holds the record `k` (R70, R116). Safe. -/
  | recorded (k : FaultRecord)
  deriving DecidableEq, Repr

/-- What the model does not accept. -/
inductive Refusal where
  /-- Raised by an arm of `exec` for an instruction without a meaning; no arm does so. Safe. -/
  | notModelled (mnemonic : String)
  /-- Raised by `load` for a program of `length` bytes, more than memory holds (R131, D16). Safe. -/
  | programTooLong (length : Nat)
  deriving DecidableEq, Repr

/-- The state right after reset and before the load (R24, R130). -/
def State.reset : State where
  regs := #v[Config.gprReset, Config.gprReset, Config.gprReset, Config.gprReset,
             Config.gprReset, Config.gprReset, Config.gprReset, Config.spReset]
  pc := Config.pcReset
  run := true
  fault := none
  mem := []
  out := []

end Sys2Proof.Machine
end

