-- ==== Sys2Proof/Machine/Ops.lean ====
section
/-! DEFINITION. The named operations over memory, registers, the program counter, the output and the fault record, and
taking a fault as one shared operation (spec 00_scope.md R7, 20_memory.md, 60_exceptions.md R116). -/

namespace Sys2Proof.Machine

/-! ### Memory as data -/

/-- The byte at an address; an unlisted address holds its reset value (R20). -/
def Memory.read : Memory → Nat → Byte
  | [], _ => Config.memReset
  | (k, v) :: rest, a => if k = a then v else Memory.read rest a

/-- Take every entry of an address out. -/
def Memory.erase : Memory → Nat → Memory
  | [], _ => []
  | (k, v) :: rest, a => if k = a then Memory.erase rest a else (k, v) :: Memory.erase rest a

/-- Put an entry in before the first higher address. -/
def Memory.insert : Memory → Nat → Byte → Memory
  | [], a, v => [(a, v)]
  | (k, w) :: rest, a, v => if a < k then (a, v) :: (k, w) :: rest else (k, w) :: Memory.insert rest a v

/-- Store a byte at an address, keeping the canonical form: a cell at its reset value is not listed. -/
def Memory.write (m : Memory) (a : Nat) (v : Byte) : Memory :=
  if v = Config.memReset then m.erase a else (m.erase a).insert a v

/-- Every listed address is at least `lo` and in the address space, the addresses rise strictly, and no entry holds the
value an unlisted address reads as. -/
def Memory.wfFrom : Nat → Memory → Bool
  | _, [] => true
  | lo, (k, v) :: rest =>
    decide (lo ≤ k) && decide (k < Config.memSize) && decide (v ≠ Config.memReset) && Memory.wfFrom (k + 1) rest

/-- The canonical form of a memory: equal memories are equal lists. -/
def Memory.wf (m : Memory) : Bool := m.wfFrom 0

/-- Store bytes at ascending addresses from `a` on, leaving out what lies beyond the address space. -/
def Memory.storeBytes : Memory → Nat → List Byte → Memory
  | m, _, [] => m
  | m, a, b :: bs => Memory.storeBytes (if a < Config.memSize then m.write a b else m) (a + 1) bs

/-! ### The primitives of R7 -/

/-- `MemRead(a, 1)` (R31): the address is never reduced. -/
def State.memRead (s : State) (a : Nat) : Except FaultRecord Byte :=
  if a < Config.memSize then .ok (s.mem.read a) else .error (.outOfBounds .mem a)

/-- The state with another memory. -/
def State.setMem (s : State) (m : Memory) : State := { s with mem := m }

/-- `MemWrite(a, 1, v)` (R32): the value is truncated to 8 bits, the address is never reduced. -/
def State.memWrite (s : State) (a v : Nat) : Except FaultRecord State :=
  if a < Config.memSize then .ok (s.setMem (s.mem.write a (Byte.narrow v))) else .error (.outOfBounds .mem a)

/-- `x[i]` (R7, R10). -/
def State.getReg (s : State) (i : Fin 8) : Byte := s.regs[i]

/-- `x[i] <- v` (R7, R10). -/
def State.setReg (s : State) (i : Fin 8) (v : Byte) : State := { s with regs := s.regs.set i v }

/-- `Emit(v)`: hand a byte to the Output Sink (R7, R22). -/
def State.emit (s : State) (v : Byte) : State := { s with out := s.out ++ [v] }

/-- `pc <- pc + n`, at the PC's width, without wrap (R15, R16). -/
def State.advance (s : State) (n : Nat) : State := { s with pc := s.pc + n }

/-! ### Taking a fault -/

/-- Taking a fault (R116): `FAULT` records it and nothing else changes; `pc` stays at the faulting instruction, nothing
is saved, and control goes nowhere. There is no return from a fault beside it: only reset leaves it (R119). -/
def State.raise (s : State) (k : FaultRecord) : State := { s with fault := some k }

/-- The end of a handler that began in `s`: the state it completed in, or the fault it raised, taken in `s`, so that a
faulting instruction changes nothing but `FAULT` (R75, R116). -/
def settle (s : State) (r : Except FaultRecord State) : Host.Outcome State Fault Refusal :=
  match r with
  | .ok t => .next t
  | .error k => .next (s.raise k)

end Sys2Proof.Machine
end

