-- ==== Sys2Proof/Machine/Flags.lean ====
section
/-! DEFINITION. The status state. The core has no condition codes and no instruction computes a flag of its result
(spec 10_state.md R19); its status is the Running Flag and the fault record, what they say of a stopped core, and the
exit code (R17, R18, 40_fetch_execute.md R70, R78, 60_exceptions.md R112). -/

namespace Sys2Proof.Machine

/-- `RUN <- 0` (R17, R100). -/
def State.clearRun (s : State) : State := { s with run := false }

/-- The core is stopped: `RUN = 0` or `FAULT` is not `none` (R8, R70). -/
def State.stopped (s : State) : Bool := !s.run || s.fault.isSome

/-- Why the core has no step, where it has none (R70, R78). -/
def State.stopReason (s : State) : Option Fault :=
  match s.fault with
  | some k => some (.recorded k)
  | none => if s.run then none else some .halted

/-- The end of a run was a normal completion (R78). -/
def State.normalCompletion (s : State) : Bool := !s.run && s.fault.isNone

/-- The end of a run was a failure (R78). -/
def State.failed (s : State) : Bool := s.fault.isSome

/-- The cause code of a fault, which is also the exit code (R112). -/
def FaultRecord.cause : FaultRecord → Nat
  | .unknownInstruction _ _ => 1
  | .outOfBounds _ _ => 2
  | .unsupportedOperation _ => 3

/-- The exit code the environment forms from the status of a stopped core (R112, R155); none while the core runs. -/
def State.exitCode (s : State) : Option Nat :=
  match s.fault with
  | some k => some k.cause
  | none => if s.run then none else some 0

end Sys2Proof.Machine
end

