-- ==== Sys2Proof/Machine/Halt.lean ====
section
/-! DEFINITION. `HLT` (spec 44_hlt.md). -/

namespace Sys2Proof.Machine

/-- `HLT` (R100): `RUN` is cleared and `pc` advances by the width 1 (the spec's decision D7, log entry 7). -/
def execHlt (s : State) : Host.Outcome State Fault Refusal :=
  settle s (.ok (s.clearRun.advance 1))

end Sys2Proof.Machine
end

