-- ==== Sys2Proof/Machine/Operands.lean ====
section
/-! DEFINITION. The operand forms: a register named by a whole byte, and the implicit registers (spec 10_state.md R13,
R14, 42_mul_alu.md R92). -/

namespace Sys2Proof.Machine

/-- `RegIndex(b)` (R13): the whole byte is the index; above 7 it is a fault, never masked. -/
def regIndex (b : Byte) : Except FaultRecord (Fin 8) :=
  if h : b.toNat < Config.nRegs then .ok ⟨b.toNat, h⟩ else .error (.outOfBounds .reg b.toNat)

/-- `SP_INDEX`: register 7, the implicit address register of `PUSH` and `POP` (R12, R92). -/
def spIndex : Fin 8 := 7

/-- The factor and destination of `MUL` (R85, R92). -/
def mulDest : Fin 8 := 0

/-- The other factor of `MUL` (R85, R92). -/
def mulFactor : Fin 8 := 1

/-- The stack pointer (R12). -/
def State.sp (s : State) : Byte := s.getReg spIndex

/-- The address the stack pointer holds (R33): a byte, hence always in bounds. -/
def State.spAddress (s : State) : Nat := s.sp.toNat

/-- `x[7] <- (x[7] - 1) mod 256`: the pre-decrement of `PUSH` (R91, R93). -/
def State.decSp (s : State) : State := s.setReg spIndex (s.sp - 1#8)

/-- `x[7] <- (x[7] + 1) mod 256`: the post-increment of `POP` (R91, R94). -/
def State.incSp (s : State) : State := s.setReg spIndex (s.sp + 1#8)

/-- The product of two bytes, computed exactly and narrowed to its low 8 bits (R86, R91). -/
def mulBytes (a b : Byte) : Byte := Byte.narrow (a.toNat * b.toNat)

/-- The sum of two bytes, computed exactly and narrowed to its low 8 bits (R88, R91). -/
def addBytes (a b : Byte) : Byte := Byte.narrow (a.toNat + b.toNat)

end Sys2Proof.Machine
end

