-- ==== Sys2Proof/Machine/LoadPrint.lean ====
section
/-! DEFINITION. `LDI` and `PRN` (spec 41_ldi_prn.md). The operand bytes have been read by the fetch. -/

namespace Sys2Proof.Machine

/-- `LDI Rn, v` (R80). -/
def execLdi (reg imm : Byte) (s : State) : Host.Outcome State Fault Refusal :=
  settle s (do
    let r ← regIndex reg
    .ok ((s.setReg r imm).advance 3))

/-- `PRN Rn` (R81). -/
def execPrn (reg : Byte) (s : State) : Host.Outcome State Fault Refusal :=
  settle s (do
    let r ← regIndex reg
    .ok ((s.emit (s.getReg r)).advance 2))

end Sys2Proof.Machine
end

