-- ==== Sys2Proof/Machine/MulAlu.lean ====
section
/-! DEFINITION. `MUL`, and the ALU entry point with its one operation `ADD`, which no opcode reaches (spec
42_mul_alu.md). -/

namespace Sys2Proof.Machine

/-- `MUL` (R85): both factors are read before the product is written. -/
def execMul (s : State) : Host.Outcome State Fault Refusal :=
  settle s (.ok ((s.setReg mulDest (mulBytes (s.getReg mulDest) (s.getReg mulFactor))).advance 3))

/-- `ALU(ADD, a, b)` (R88): index `a` is checked before index `b`, and `pc` does not change. -/
def aluAdd (a b : Byte) (s : State) : Except FaultRecord State := do
  let ra ← regIndex a
  let rb ← regIndex b
  .ok (s.setReg ra (addBytes (s.getReg ra) (s.getReg rb)))

/-- `ALU(op, a, b)` (R87, R89): the name is checked before the indices. -/
def alu (op : AluOp) (a b : Byte) (s : State) : Except FaultRecord State :=
  match op with
  | .add => aluAdd a b s
  | .other name _ => .error (.unsupportedOperation name)

end Sys2Proof.Machine
end

