-- ==== Sys2Proof/Machine/Stack.lean ====
section
/-! DEFINITION. `PUSH` and `POP` (spec 43_stack.md). -/

namespace Sys2Proof.Machine

/-- `PUSH Rn` (R93): address and value are read after the decrement. -/
def execPush (reg : Byte) (s : State) : Host.Outcome State Fault Refusal :=
  settle s (do
    let r ← regIndex reg
    let t ← s.decSp.memWrite s.decSp.spAddress (s.decSp.getReg r).toNat
    .ok (t.advance 2))

/-- `POP Rn` (R94): the loaded byte is written first, the increment then acts on whatever register 7 holds. -/
def execPop (reg : Byte) (s : State) : Host.Outcome State Fault Refusal :=
  settle s (do
    let r ← regIndex reg
    let v ← s.memRead s.spAddress
    .ok ((s.setReg r v).incSp.advance 2))

end Sys2Proof.Machine
end

