-- ==== Sys2Proof/WellFormed.lean ====
section
/-! DEFINITION. Which instructions are well formed: the register bytes are legal (spec 30_encoding.md R58). An
ill-formed instruction still decodes and still has its meaning, the fault OutOfBounds(REG, b) (10_state.md R13). -/

namespace Sys2Proof

/-- A legal register byte: 0 to 7 (R51, R58). -/
def legalReg (b : Byte) : Bool := decide (b.toNat ≤ 7)

/-- Every register byte of the instruction is legal. An immediate has no illegal value, and `mul` and `hlt` have no
operand (R58). -/
def Instr.wellFormed : Instr → Bool
  | .ldi reg _ => legalReg reg
  | .prn reg => legalReg reg
  | .mul => true
  | .push reg => legalReg reg
  | .pop reg => legalReg reg
  | .hlt => true

end Sys2Proof
end

