-- ==== Sys2Proof/Decode.lean ====
section
/-! DEFINITION. The dispatch table, the decoder from bytes to an instruction, the widths, the encoder, and the bytes of
an assembler line (spec 30_encoding.md R50 to R60, 10_state.md R21). -/

namespace Sys2Proof

/-- The Opcode Dispatch Table (R21, R55): exactly these six rows. -/
def dispatchTable : List OpRow :=
  [ ⟨.LDI, 0x82#8, .opRI⟩, ⟨.PRN, 0x47#8, .opR⟩, ⟨.MUL, 0xA2#8, .opXX⟩,
    ⟨.PUSH, 0x45#8, .opR⟩, ⟨.POP, 0x46#8, .opR⟩, ⟨.HLT, 0x01#8, .op⟩ ]

/-- Look the whole opcode byte up in the table (R52, R56). -/
def lookup (op : Byte) : Option OpRow := dispatchTable.find? (fun row => row.code == op)

/-- The opcode byte of a mnemonic (R55). -/
def Mnemonic.code : Mnemonic → Byte
  | .LDI => 0x82#8
  | .PRN => 0x47#8
  | .MUL => 0xA2#8
  | .PUSH => 0x45#8
  | .POP => 0x46#8
  | .HLT => 0x01#8

/-- The width of a format in bytes, opcode byte included (R51). -/
def Format.width : Format → Nat
  | .op => 1
  | .opR => 2
  | .opRI => 3
  | .opXX => 3

/-- The format of a mnemonic (R55). -/
def Mnemonic.format : Mnemonic → Format
  | .LDI => .opRI
  | .PRN => .opR
  | .MUL => .opXX
  | .PUSH => .opR
  | .POP => .opR
  | .HLT => .op

/-- The width of an instruction in bytes (R50, R55). -/
def Instr.width (i : Instr) : Nat := i.mnemonic.format.width

/-- The longest instruction, in bytes (R50). -/
def maxWidth : Nat := 3

/-- Why a list of bytes is no instruction: its first byte is in no row of the table (R57), or the byte at offset `k`,
which the instruction reads, is not there (R36). -/
inductive DecodeError where
  | unknownOpcode (op : Byte)
  | missingByte (k : Nat)
  deriving DecidableEq, Repr

/-- The byte at offset `k` of an instruction (R50, R53). -/
def operandByte (bs : List Byte) (k : Nat) : Except DecodeError Byte :=
  match bs[k]? with
  | some b => .ok b
  | none => .error (.missingByte k)

/-- The operands of the row's mnemonic, read in ascending order (R51, R53, R115). `MUL` and `HLT` read none. -/
def decodeOperands (m : Mnemonic) (bs : List Byte) : Except DecodeError Instr :=
  match m with
  | .LDI => do
    let reg ← operandByte bs 1
    let imm ← operandByte bs 2
    .ok (.ldi reg imm)
  | .PRN => do
    let reg ← operandByte bs 1
    .ok (.prn reg)
  | .MUL => .ok .mul
  | .PUSH => do
    let reg ← operandByte bs 1
    .ok (.push reg)
  | .POP => do
    let reg ← operandByte bs 1
    .ok (.pop reg)
  | .HLT => .ok .hlt

/-- Decode the instruction at the head of a list of bytes. Total: membership is checked first (R72), then the operand
bytes are read; what follows the instruction plays no part (R54). -/
def decode (bs : List Byte) : Except DecodeError Instr :=
  match bs with
  | [] => .error (.missingByte 0)
  | op :: _ =>
    match lookup op with
    | none => .error (.unknownOpcode op)
    | some row => decodeOperands row.mnemonic bs

/-- The bytes of an instruction (R51, R55). The two ignored bytes of `MUL` are written 0x00 and 0x01, as the spec's own
notation writes them (R60). -/
def encode : Instr → List Byte
  | .ldi reg imm => [0x82#8, reg, imm]
  | .prn reg => [0x47#8, reg]
  | .mul => [0xA2#8, 0x00#8, 0x01#8]
  | .push reg => [0x45#8, reg]
  | .pop reg => [0x46#8, reg]
  | .hlt => [0x01#8]

/-- The bytes that an instruction's own decoding reads, in order: the opcode byte and the operands. They are the whole
encoding but for the two ignored bytes of `MUL` (R58, R85). -/
def significantBytes : Instr → List Byte
  | .ldi reg imm => [0x82#8, reg, imm]
  | .prn reg => [0x47#8, reg]
  | .mul => [0xA2#8]
  | .push reg => [0x45#8, reg]
  | .pop reg => [0x46#8, reg]
  | .hlt => [0x01#8]

/-- The byte that names register `n`. -/
def regByte (n : Fin 8) : Byte := BitVec.ofNat 8 n.val

/-- The bytes of an assembler line (R60). -/
def AsmLine.bytes : AsmLine → List Byte
  | .ldi n v => [0x82#8, regByte n, v]
  | .prn n => [0x47#8, regByte n]
  | .mul => [0xA2#8, 0x00#8, 0x01#8]
  | .mulWith b1 b2 => [0xA2#8, b1, b2]
  | .push n => [0x45#8, regByte n]
  | .pop n => [0x46#8, regByte n]
  | .hlt => [0x01#8]
  | .byte v => [v]

/-- The instruction an assembler line stands for; `.byte` stands for none (R60). -/
def AsmLine.instr? : AsmLine → Option Instr
  | .ldi n v => some (.ldi (regByte n) v)
  | .prn n => some (.prn (regByte n))
  | .mul => some .mul
  | .mulWith _ _ => some .mul
  | .push n => some (.push (regByte n))
  | .pop n => some (.pop (regByte n))
  | .hlt => some .hlt
  | .byte _ => none

/-- The image of a listing: the lines' bytes one after the other (R35, R60). -/
def assemble (lines : List AsmLine) : List Byte := lines.flatMap AsmLine.bytes

/-- Walk a listing from its first byte with the instructions' widths (R54), at most `fuel` instructions. -/
def decodeAll : Nat → List Byte → Except DecodeError (List Instr)
  | _, [] => .ok []
  | 0, _ :: _ => .ok []
  | fuel + 1, b :: bs =>
    match decode (b :: bs) with
    | .error e => .error e
    | .ok i =>
      match decodeAll fuel ((b :: bs).drop i.width) with
      | .error e => .error e
      | .ok is => .ok (i :: is)

/-- The bytes of a word whose bit 0 is the least significant bit of the first byte, at the lowest address; every bit
from `nbits` on is 0, up to the longest instruction. -/
def bytesOfWord (nbits w : Nat) : List Byte :=
  let v := w % 2 ^ nbits
  [Byte.narrow v, Byte.narrow (v / 256), Byte.narrow (v / 65536)]

/-- What the decoder reads from a word numbered as spec/opcode_table.json numbers it. -/
def decodeTableWord (nbits w : Nat) : Option Instr :=
  match decode (bytesOfWord nbits w) with
  | .ok i => some i
  | .error _ => none

end Sys2Proof
end

