-- ==== Sys2Proof/Machine/Fetch.lean ====
section
/-! DEFINITION. Fetching and decoding at the program counter (spec 40_fetch_execute.md R71 to R73, 60_exceptions.md
R115). -/

namespace Sys2Proof.Machine

/-- The bytes of memory from `pc` on, as many as the longest instruction has and the address space holds: none when `pc`
is above 255 (R16, R36). -/
def State.window (s : State) : List Byte :=
  (List.range (min maxWidth (Config.memSize - s.pc))).map (fun k => s.mem.read (s.pc + k))

/-- Fetch, membership check and operand reads (R71, R72, R115). The first byte the instruction reads that is not in the
address space is the one reported, and a byte the instruction does not read is never missed (R85). -/
def State.fetch (s : State) : Except FaultRecord Instr :=
  match decode s.window with
  | .ok i => .ok i
  | .error (.unknownOpcode op) => .error (.unknownInstruction op s.pc)
  | .error (.missingByte k) => .error (.outOfBounds .mem (s.pc + k))

/-- The state with a word of the opcode table stored at `pc`, cells beyond the address space left out. -/
def State.storeWordAtPc (s : State) (nbits w : Nat) : State :=
  s.setMem (s.mem.storeBytes s.pc (bytesOfWord nbits w))

end Sys2Proof.Machine
end

