-- ==== Sys2Proof/Machine/Step.lean ====
section
/-! DEFINITION. One step of the Fetch-Execute Loop (spec 40_fetch_execute.md R70 to R75). -/

namespace Sys2Proof.Machine

/-- One step (R74). A stopped core has none, and the answer says why (R70; log entry 3). Otherwise the fetched
instruction runs, or the fault the fetch met is taken. -/
def step (s : State) : Host.Outcome State Fault Refusal :=
  match s.stopReason with
  | some r => .fault r
  | none =>
    match s.fetch with
    | .ok i => exec i s
    | .error k => .next (s.raise k)

/-- The state with a word of the opcode table where the next step fetches: in memory at `pc`. It stands for the load from
outside, which touches memory only (R131, R152; log entry 4). -/
def State.withFetchWord (s : State) (nbits w : Nat) : State := s.storeWordAtPc nbits w

end Sys2Proof.Machine
end

