-- ==== Sys2Proof/Machine/Bus.lean ====
section
/-! DEFINITION. The transactions a step makes on the memory and output interfaces, in order (spec 20_memory.md R34,
80_interfaces.md R150, R151). They are no state: they are computed from the state the step begins in. -/

namespace Sys2Proof.Machine

/-- One transaction: a memory read, a memory write, or a byte handed to the Output Sink. -/
inductive Transaction where
  | read (address : Nat)
  | write (address : Nat) (value : Byte)
  | emit (value : Byte)
  deriving DecidableEq, Repr

/-- Issue a read and go on with the byte; a read out of bounds is not issued, and nothing after it (R34, R151). -/
def State.issueRead (s : State) (a : Nat) (go : Byte → List Transaction) : List Transaction :=
  match s.memRead a with
  | .ok v => .read a :: go v
  | .error _ => []

/-- Go on with a legal register index; nothing follows an illegal one (R34, R115). -/
def withReg (b : Byte) (go : Fin 8 → List Transaction) : List Transaction :=
  match regIndex b with
  | .ok r => go r
  | .error _ => []

/-- The transactions after the opcode fetch: the table of R34, with the output of `PRN` (R150). -/
def State.handlerTransactions (s : State) : Mnemonic → List Transaction
  | .LDI => s.issueRead (s.pc + 1) (fun _ => s.issueRead (s.pc + 2) (fun _ => []))
  | .PRN => s.issueRead (s.pc + 1) (fun b => withReg b (fun r => [.emit (s.getReg r)]))
  | .MUL => []
  | .PUSH => s.issueRead (s.pc + 1) (fun b => withReg b (fun r => [.write s.decSp.spAddress (s.decSp.getReg r)]))
  | .POP => s.issueRead (s.pc + 1) (fun b => withReg b (fun _ => s.issueRead s.spAddress (fun _ => [])))
  | .HLT => []

/-- The transactions of the step from `s`, in order (R34, R150): none on a stopped core. -/
def State.stepTransactions (s : State) : List Transaction :=
  if s.stopped then []
  else
    s.issueRead s.pc (fun op =>
      match lookup op with
      | some row => s.handlerTransactions row.mnemonic
      | none => [])

/-- The memory after a list of transactions. -/
def Memory.applyTransactions : Memory → List Transaction → Memory
  | m, [] => m
  | m, .read _ :: ts => Memory.applyTransactions m ts
  | m, .write a v :: ts => Memory.applyTransactions (m.write a v) ts
  | m, .emit _ :: ts => Memory.applyTransactions m ts

/-- The bytes a list of transactions hands to the Output Sink. -/
def emittedBytes : List Transaction → List Byte
  | [] => []
  | .read _ :: ts => emittedBytes ts
  | .write _ _ :: ts => emittedBytes ts
  | .emit v :: ts => v :: emittedBytes ts

end Sys2Proof.Machine
end

