-- ==== Sys2Proof/Machine/Reference.lean ====
section
/-! DEFINITION. The step as the spec's own pseudo-code writes it (40_fetch_execute.md R74 with the handlers of R80, R81,
R85, R93, R94, R100): each handler reads its operand bytes from memory itself, in the order written (R73). The machine
fetches and decodes first and never calls this file; that the two agree is an obligation. -/

namespace Sys2Proof.Machine

/-- The pseudo-code block of R80. -/
def pseudoLdi (s : State) : Except FaultRecord State := do
  let b ← s.memRead (s.pc + 1)
  let v ← s.memRead (s.pc + 2)
  let r ← regIndex b
  .ok ((s.setReg r v).advance 3)

/-- The pseudo-code block of R81. -/
def pseudoPrn (s : State) : Except FaultRecord State := do
  let b ← s.memRead (s.pc + 1)
  let r ← regIndex b
  .ok ((s.emit (s.getReg r)).advance 2)

/-- The pseudo-code block of R85. -/
def pseudoMul (s : State) : Except FaultRecord State :=
  .ok ((s.setReg 0 (Byte.narrow ((s.getReg 0).toNat * (s.getReg 1).toNat))).advance 3)

/-- The pseudo-code block of R93. -/
def pseudoPush (s : State) : Except FaultRecord State := do
  let b ← s.memRead (s.pc + 1)
  let r ← regIndex b
  let s1 := s.setReg 7 (s.getReg 7 - 1#8)
  let s2 ← s1.memWrite (s1.getReg 7).toNat (s1.getReg r).toNat
  .ok (s2.advance 2)

/-- The pseudo-code block of R94. -/
def pseudoPop (s : State) : Except FaultRecord State := do
  let b ← s.memRead (s.pc + 1)
  let r ← regIndex b
  let v ← s.memRead (s.getReg 7).toNat
  let s1 := s.setReg r v
  let s2 := s1.setReg 7 (s1.getReg 7 + 1#8)
  .ok (s2.advance 2)

/-- The pseudo-code block of R100. -/
def pseudoHlt (s : State) : Except FaultRecord State := .ok (s.clearRun.advance 1)

/-- The pseudo-code block `Step` of R74; its precondition is that the core is not stopped. -/
def pseudoStep (s : State) : Except FaultRecord State := do
  let op ← s.memRead s.pc
  if op = 0x82#8 then pseudoLdi s
  else if op = 0x47#8 then pseudoPrn s
  else if op = 0xA2#8 then pseudoMul s
  else if op = 0x45#8 then pseudoPush s
  else if op = 0x46#8 then pseudoPop s
  else if op = 0x01#8 then pseudoHlt s
  else .error (.unknownInstruction op s.pc)

end Sys2Proof.Machine
end

