-- ==== Sys2Proof/Machine/Env.lean ====
section
/-! DEFINITION. What the environment does to the core and sees of it: the load, the ALU entry point, the run and the
printed lines (spec 80_interfaces.md, 70_reset_and_hazards.md R131, R132, 40_fetch_execute.md R74, R78). -/

namespace Sys2Proof.Machine

/-- The Loader's writes: ascending addresses from `a` on, through `memWrite` (R131, R152). -/
def State.writeFrom : State → Nat → List Nat → Except FaultRecord State
  | s, _, [] => .ok s
  | s, a, v :: vs =>
    match s.memWrite a v with
    | .ok t => State.writeFrom t (a + 1) vs
    | .error k => .error k

/-- Load a program at `LOAD_BASE` (R131). Only memory changes. A program that memory does not hold is refused (D16). On a
core already stopped, which an invocation of the ALU before the run can leave, the load has no effect: R70 and R23(d) let
nothing change until reset, while R131 and R152 give the writes without a condition and D19 names steps and invocations
only (DEDUCED, log entry 21). -/
def load (prog : List Nat) (s : State) : Host.Outcome State Fault Refusal :=
  match s.writeFrom Config.loadBase prog with
  | .ok t => .next (if s.stopped then s else t)
  | .error _ => .refused (.programTooLong prog.length)

/-- Invoke the ALU entry point from outside (R156): no effect on a stopped core (D19), otherwise it completes or its
fault is taken (R117). -/
def aluInvoke (op : AluOp) (a b : Byte) (s : State) : State :=
  if s.stopped then s
  else
    match alu op a b s with
    | .ok t => t
    | .error k => s.raise k

/-- `Run` (R74, R158), for at most `n` steps: step while the core is not stopped. -/
def runLoop : Nat → State → State
  | 0, s => s
  | n + 1, s =>
    match step s with
    | .next t => runLoop n t
    | .fault _ => s
    | .refused _ => s

/-- The shortest decimal numeral of a byte, its digits from the most significant on (R154). -/
def decimalDigits (v : Byte) : List Nat :=
  let n := v.toNat
  if n < 10 then [n]
  else if n < 100 then [n / 10, n % 10]
  else [n / 100, n / 10 % 10, n % 10]

/-- The lines the Output Sink prints for the bytes emitted, in order, each as its decimal digits; the line end is the
sink's (R154). -/
def State.printedLines (s : State) : List (List Nat) := s.out.map decimalDigits

end Sys2Proof.Machine
end

