-- ==== Sys2Proof/Safety.lean ====
section
/-! DEFINITION. What holds of every state the core can reach, and which states those are (spec 10_state.md R16, R18, R23,
60_exceptions.md R111, 80_interfaces.md R159). -/

namespace Sys2Proof.Machine

/-- What a recorded fault can hold (R111), beside the program counter it was recorded at: an unknown byte was fetched at
`pc` and is in no row of the table; a memory address is 256 to 258; a register index is 8 to 255; a name is not `ADD`. -/
def FaultRecord.legalAt (pc : Nat) : FaultRecord → Bool
  | .unknownInstruction op a => decide (lookup op = none) && decide (a = pc) && decide (a ≤ 255)
  | .outOfBounds .mem a => decide (256 ≤ a) && decide (a ≤ 258)
  | .outOfBounds .reg b => decide (8 ≤ b) && decide (b ≤ 255)
  | .unsupportedOperation name => decide (name ≠ "ADD")

/-- The invariant of the core: memory is canonical and in its address space, `pc` is 0 to 258 (R16, R23), a fault leaves
`RUN` set (R18, R78), and a recorded fault holds what R111 says. Registers and cells are bytes by their type. -/
structure State.Inv (s : State) : Prop where
  memory_canonical : s.mem.wf = true
  pc_in_range : s.pc ≤ 258
  fault_keeps_run : s.fault ≠ none → s.run = true
  fault_legal : ∀ k, s.fault = some k → k.legalAt s.pc = true

/-- The states before the run: reset, then the environment may load memory and invoke the ALU entry point, in any order
and number (R132, R159; DEDUCED, log entry 14). A fault of an invocation stops the core, and loads after it have no effect
(log entry 21). -/
inductive PreRun : State → Prop where
  | reset : PreRun State.reset
  | load {s t : State} {prog : List Nat} : PreRun s → load prog s = .next t → PreRun t
  | alu {s : State} (op : AluOp) (a b : Byte) : PreRun s → PreRun (aluInvoke op a b s)

/-- The states the core can be in: before the run, or after steps of the loop (R132, R159). -/
inductive Reachable : State → Prop where
  | start {s : State} : PreRun s → Reachable s
  | step {s t : State} : Reachable s → Machine.step s = .next t → Reachable t

/-- `Later s t`: without a reset the core comes from `s` to `t`, by steps of the loop and by whatever the environment does
to it, at any moment: the environment of R159 does less (log entry 14). -/
inductive Later (s : State) : State → Prop where
  | refl : Later s s
  | load {t u : State} {prog : List Nat} : Later s t → Machine.load prog t = .next u → Later s u
  | alu {t : State} (op : AluOp) (a b : Byte) : Later s t → Later s (aluInvoke op a b t)
  | step {t u : State} : Later s t → Machine.step t = .next u → Later s u

/-- The table of R14, the column of the registers read: the instruction's outcome may depend on register `k`. -/
def readsRegister : Instr → Fin 8 → Bool
  | .ldi _ _, _ => false
  | .prn reg, k => k.val == reg.toNat
  | .mul, k => k == 0 || k == 1
  | .push reg, k => k == 7 || k.val == reg.toNat
  | .pop _, k => k == 7
  | .hlt, _ => false

/-- The table of R14, the column of the registers written: the instruction may change register `k`. -/
def writesRegister : Instr → Fin 8 → Bool
  | .ldi reg _, k => k.val == reg.toNat
  | .prn _, _ => false
  | .mul, k => k == 0
  | .push _, k => k == 7
  | .pop reg, k => k.val == reg.toNat || k == 7
  | .hlt, _ => false

/-- Run handlers one after the other, without fetching: for statements about sequences of instructions. -/
def execAll : List Instr → State → Host.Outcome State Fault Refusal
  | [], s => .next s
  | i :: is, s =>
    match exec i s with
    | .next t => execAll is t
    | .fault r => .fault r
    | .refused r => .refused r

/-- A safe run: from `s`, the loop reaches a normal completion within `n` steps (R78). -/
def State.completesWithin (s : State) (n : Nat) : Bool := (runLoop n s).normalCompletion

end Sys2Proof.Machine
end

