-- ==== Sys2Proof/Certificates/Slice0/Obligations.lean ====
section
/-! DEFINITION. The statements about the core, each from the rules of the spec. A statement that rests on a decision D<n>
of 92_eei_decisions.md, on a derivation the spec marks as its own, or on a log entry says so in its docstring. -/

open Sys2Proof Sys2Proof.Machine

/-! ### Encoding -/

/-- 30_encoding.md section 3, with the formats of section 1: the table has the six rows, and a lookup matches the whole
byte, so no byte but a row's own finds it and each row is found. -/
def Obligations.OpcodeLookupMatchesWholeByte : Prop :=
  dispatchTable.map (fun row => (row.mnemonic, row.code, row.format.width)) =
      [(.LDI, 0x82#8, 3), (.PRN, 0x47#8, 2), (.MUL, 0xA2#8, 3), (.PUSH, 0x45#8, 2), (.POP, 0x46#8, 2), (.HLT, 0x01#8, 1)] ∧
    ∀ (op : Byte) (row : OpRow), lookup op = some row ↔ row ∈ dispatchTable ∧ row.code = op

/-- 30_encoding.md sections 1 and 3: words written out from the bit patterns of the table decode to the instructions they
stand for. A sanity statement. -/
def Obligations.SpecWordsDecode : Prop :=
  decodeTableWord 24 (0b00001001 * 65536 + 0b00000011 * 256 + 0b10000010) = some (.ldi 3#8 9#8) ∧
  decodeTableWord 16 (0b00000100 * 256 + 0b01000111) = some (.prn 4#8) ∧
  decodeTableWord 24 (0b11111111 * 65536 + 0b00000010 * 256 + 0b10100010) = some .mul ∧
  decodeTableWord 16 (0b00000111 * 256 + 0b01000101) = some (.push 7#8) ∧
  decodeTableWord 16 (0b00000101 * 256 + 0b01000110) = some (.pop 5#8) ∧
  decodeTableWord 8 0b00000001 = some .hlt ∧
  decodeTableWord 8 0b00000000 = none ∧
  decodeTableWord 8 0b10100000 = none

/-- 30_encoding.md sections 1 and 2: decode of encode is the instruction, for every instruction with every operand byte,
and whatever bytes follow. The two ignored bytes of `MUL` are the encoder's choice (log entry 11). -/
def Obligations.DecodeOfEncode : Prop :=
  ∀ (i : Instr) (rest : List Byte), decode (encode i ++ rest) = .ok i

/-- 30_encoding.md sections 1 and 2: bytes decode to an instruction exactly when they begin with its opcode byte and its
operand bytes, so every word has one meaning, no operand bit is dropped, and only the two bytes after a `MUL` opcode do
not matter. That those two need not be there is the spec's decision D8 (log entry 11). -/
def Obligations.DecodesExactlyItsBytes : Prop :=
  ∀ (bs : List Byte) (i : Instr), decode bs = .ok i ↔ ∃ rest, bs = significantBytes i ++ rest

/-- 30_encoding.md rule R54's walk (derived there): a listing of any instructions, laid out one after the other, is read
back whole by walking it with the widths of the table. -/
def Obligations.ListingDecodesToItsInstructions : Prop :=
  ∀ is : List Instr, decodeAll is.length (is.flatMap encode) = .ok is

/-- 30_encoding.md section 5 (the notation is the spec's decision D17): every assembler line that stands for an
instruction assembles to as many bytes as that instruction is wide, and they decode to it, a well-formed one, whatever
bytes follow. `MUL b1, b2` is among them with any two bytes. -/
def Obligations.AssemblerLineDecodes : Prop :=
  ∀ (l : AsmLine) (i : Instr) (rest : List Byte), l.instr? = some i →
    l.bytes.length = i.width ∧ i.wellFormed = true ∧ decode (l.bytes ++ rest) = .ok i

/-! ### Reset, registers and memory -/

/-- 10_state.md section 7. The zeros of registers 0 to 6 are the spec's decision D2, `FAULT` and `OUT` its decisions D11
and D14 (log entries 5 and 6). -/
def Obligations.ResetValues : Prop :=
  (∀ k : Fin 8, State.reset.getReg k = if k = 7 then 0xF4#8 else 0#8) ∧
  State.reset.pc = 0 ∧ State.reset.run = true ∧ State.reset.fault = none ∧ State.reset.out = [] ∧
  (∀ a, State.reset.mem.read a = 0#8) ∧
  Sys2Proof.core.reset = State.reset

/-- 10_state.md section 1: every index is written and read back, no register is a copy of another or hard-wired, and a
register write touches no other state. -/
def Obligations.RegisterFileReadAfterWrite : Prop :=
  ∀ (s : State) (i k : Fin 8) (v : Byte),
    (s.setReg i v).getReg k = (if k = i then v else s.getReg k) ∧
    { s.setReg i v with regs := s.regs } = s

/-- 20_memory.md sections 1 and 7: at every address, a write followed by reads. Inside the address space the byte written,
truncated to 8 bits, is read at its address and every other address reads as before; outside it both are faults. -/
def Obligations.MemoryReadAfterWrite : Prop :=
  ∀ (s : State) (a v b : Nat),
    (a ≤ 255 → ∃ t, s.memWrite a v = .ok t ∧ { t with mem := s.mem } = s ∧
      (b ≤ 255 → ∃ w : Byte, t.memRead b = .ok w ∧ w.toNat = if b = a then v % 256 else (s.mem.read b).toNat)) ∧
    (255 < a → s.memWrite a v = .error (.outOfBounds .mem a)) ∧
    (255 < b → s.memRead b = .error (.outOfBounds .mem b))

/-- 10_state.md section 4, as the model holds memory (log entry 1): two memories in canonical form that read alike at
every address are the same data. -/
def Obligations.CanonicalMemoriesEqual : Prop :=
  ∀ m m' : Memory, m.wf = true → m'.wf = true → (∀ a, m.read a = m'.read a) → m = m'

/-! ### The instructions: completion and result -/

/-- 41_ldi_prn.md, LDI. With a legal register byte `LDI` completes, for every state: the register takes the immediate, `pc`
advances by 3, nothing else changes. -/
def Obligations.LdiCompletes : Prop :=
  ∀ (s : State) (reg imm : Byte) (r : Fin 8), reg.toNat = r.val →
    ∃ t, exec (.ldi reg imm) s = .next t ∧ t.getReg r = imm ∧ (∀ k, k ≠ r → t.getReg k = s.getReg k) ∧
      t.pc = s.pc + 3 ∧ t.run = s.run ∧ t.fault = s.fault ∧ t.out = s.out ∧ ∀ a, t.mem.read a = s.mem.read a

/-- 41_ldi_prn.md, PRN (that the output is kept as a history is the spec's decision D14). With a legal register byte `PRN`
completes, for every state: the register's byte is appended to the output, `pc` advances by 2, nothing else changes. -/
def Obligations.PrnCompletes : Prop :=
  ∀ (s : State) (reg : Byte) (r : Fin 8), reg.toNat = r.val →
    ∃ t, exec (.prn reg) s = .next t ∧ t.out = s.out ++ [s.getReg r] ∧ (∀ k, t.getReg k = s.getReg k) ∧
      t.pc = s.pc + 2 ∧ t.run = s.run ∧ t.fault = s.fault ∧ ∀ a, t.mem.read a = s.mem.read a

/-- 42_mul_alu.md section MUL (that its two bytes are not read is the spec's decision D8). `MUL` completes on every state:
register 0 takes the low 8 bits of the product, `pc` advances by 3, nothing else changes. -/
def Obligations.MulCompletes : Prop :=
  ∀ s : State, ∃ t, exec .mul s = .next t ∧
      (t.getReg 0).toNat = ((s.getReg 0).toNat * (s.getReg 1).toNat) % 256 ∧ (∀ k, k ≠ 0 → t.getReg k = s.getReg k) ∧
      t.pc = s.pc + 3 ∧ t.run = s.run ∧ t.fault = s.fault ∧ t.out = s.out ∧ ∀ a, t.mem.read a = s.mem.read a

/-- R86. The new register 0 is the remainder of the exact product on division by 256, the other factor stays, and swapping
the contents of registers 0 and 1 gives the same product in register 0 and leaves the other factor in register 1. -/
def Obligations.MulGivesRemainderOfProduct : Prop :=
  ∀ s s' : State, s'.getReg 0 = s.getReg 1 → s'.getReg 1 = s.getReg 0 →
    ∃ t t', exec .mul s = .next t ∧ exec .mul s' = .next t' ∧
      (t.getReg 0).toNat = ((s.getReg 0).toNat * (s.getReg 1).toNat) % 256 ∧ t.getReg 1 = s.getReg 1 ∧
      t'.getReg 0 = t.getReg 0 ∧ t'.getReg 1 = s.getReg 0

/-- 43_stack.md, PUSH (the wrap from 0 to 255 is the spec's decision D6). With a legal register byte `PUSH` completes, for
every state: register 7 is decremented, the cell it then names takes the named register's value as it is after the
decrement (so `PUSH R7` stores the decremented pointer), every other cell reads as before, and `pc` advances by 2. -/
def Obligations.PushCompletes : Prop :=
  ∀ (s : State) (reg : Byte) (r : Fin 8), reg.toNat = r.val →
    ∃ t, exec (.push reg) s = .next t ∧ t.getReg 7 = s.getReg 7 - 1#8 ∧ (∀ k, k ≠ 7 → t.getReg k = s.getReg k) ∧
      t.mem.read (s.getReg 7 - 1#8).toNat = (if r = 7 then s.getReg 7 - 1#8 else s.getReg r) ∧
      (∀ a, a ≠ (s.getReg 7 - 1#8).toNat → t.mem.read a = s.mem.read a) ∧
      t.pc = s.pc + 2 ∧ t.run = s.run ∧ t.fault = s.fault ∧ t.out = s.out

/-- 43_stack.md, POP (the wrap from 255 to 0 is the spec's decision D6). With a legal register byte `POP` completes, for
every state: the named register takes the byte register 7 points at, register 7 is then incremented (`POP R7` increments
the byte it loaded), `pc` advances by 2, and no cell changes. -/
def Obligations.PopCompletes : Prop :=
  ∀ (s : State) (reg : Byte) (r : Fin 8), reg.toNat = r.val →
    ∃ t, exec (.pop reg) s = .next t ∧
      (r ≠ 7 → t.getReg r = s.mem.read (s.getReg 7).toNat ∧ t.getReg 7 = s.getReg 7 + 1#8) ∧
      (r = 7 → t.getReg 7 = s.mem.read (s.getReg 7).toNat + 1#8) ∧
      (∀ k, k ≠ r → k ≠ 7 → t.getReg k = s.getReg k) ∧
      t.pc = s.pc + 2 ∧ t.run = s.run ∧ t.fault = s.fault ∧ t.out = s.out ∧ ∀ a, t.mem.read a = s.mem.read a

/-- 44_hlt.md (that `pc` advances by 1 is the spec's decision D7, log entry 7). `HLT` completes on every state: `RUN` is
cleared, nothing else but `pc` changes. -/
def Obligations.HltCompletes : Prop :=
  ∀ s : State, ∃ t, exec .hlt s = .next t ∧ t.run = false ∧ t.pc = s.pc + 1 ∧ (∀ k, t.getReg k = s.getReg k) ∧
      t.fault = s.fault ∧ t.out = s.out ∧ ∀ a, t.mem.read a = s.mem.read a

/-- 10_state.md section 1 and 60_exceptions.md section 3: a register byte above 7 is not masked, it is the fault
`OutOfBounds(REG, b)` and changes nothing but `FAULT`, in each of the four instructions that name a register. That it
faults is the spec's decision D5, that nothing else changes its decision D9 (log entry 8). -/
def Obligations.IllegalRegisterByteFaults : Prop :=
  ∀ (s : State) (reg imm : Byte), 7 < reg.toNat →
    exec (.ldi reg imm) s = .next { s with fault := some (.outOfBounds .reg reg.toNat) } ∧
    exec (.prn reg) s = .next { s with fault := some (.outOfBounds .reg reg.toNat) } ∧
    exec (.push reg) s = .next { s with fault := some (.outOfBounds .reg reg.toNat) } ∧
    exec (.pop reg) s = .next { s with fault := some (.outOfBounds .reg reg.toNat) }

/-! ### Frames -/

/-- The frame of `LDI`, `PRN`, `MUL`, `POP` and `HLT`, which store nothing (10_state.md section 1, 20_memory.md section
1): every cell reads as before; every register keeps its value but the one `LDI` or `POP` names, register 0 for `MUL`,
and register 7 for `POP`; `RUN` changes for `HLT` only; the output changes for `PRN` only; and `FAULT` changes only to
`OutOfBounds(REG, b)` of an illegal register byte, with nothing else (the spec's decisions D5 and D9). -/
def Obligations.NonStoringInstructionsFrame : Prop :=
  ∀ (i : Instr) (s t : State), (∀ r, i ≠ .push r) → exec i s = .next t →
    (∀ a, t.mem.read a = s.mem.read a) ∧
    (∀ k : Fin 8,
      (match i with
        | .ldi reg _ => k.val ≠ reg.toNat
        | .prn _ => True
        | .mul => k ≠ 0
        | .push _ => False
        | .pop reg => k.val ≠ reg.toNat ∧ k ≠ 7
        | .hlt => True) → t.getReg k = s.getReg k) ∧
    (i ≠ .hlt → t.run = s.run) ∧
    ((∀ r, i ≠ .prn r) → t.out = s.out) ∧
    (t.fault = s.fault ∨
      ∃ b : Byte, 7 < b.toNat ∧ ((∃ v, i = .ldi b v) ∨ i = .prn b ∨ i = .pop b) ∧
        t = { s with fault := some (.outOfBounds .reg b.toNat) })

/-- The frame of `PUSH` (43_stack.md, 10_state.md section 1). The address is the one the meaning stores to, the stack
pointer of the decremented state: every other cell reads as before. Only register 7 changes, `RUN` and the output do not,
and with an illegal register byte only `FAULT` changes (the spec's decisions D5 and D9). -/
def Obligations.PushFrame : Prop :=
  ∀ (reg : Byte) (s t : State), exec (.push reg) s = .next t →
    (∀ a, s.decSp.spAddress = a → ∀ b, b ≠ a → t.mem.read b = s.mem.read b) ∧
    (∀ k, k ≠ 7 → t.getReg k = s.getReg k) ∧ t.run = s.run ∧ t.out = s.out ∧
    (reg.toNat ≤ 7 → t.fault = s.fault) ∧
    (7 < reg.toNat → t = { s with fault := some (.outOfBounds .reg reg.toNat) })

/-- 10_state.md section 1, its table of the registers read and written: with any other register contents that agree on the
registers an instruction reads, its registers written come out the same and so does everything else; the registers it does
not write keep what each state had. The faults on an illegal register byte are the spec's decision D5. -/
def Obligations.RegistersReadAndWritten : Prop :=
  ∀ (i : Instr) (s t : State) (rs : Vector Byte 8), exec i s = .next t →
    (∀ k : Fin 8, readsRegister i k = true → rs[k] = s.getReg k) →
    ∃ t', exec i { s with regs := rs } = .next t' ∧ { t' with regs := t.regs } = t ∧
      (∀ k : Fin 8, writesRegister i k = true → t'.getReg k = t.getReg k) ∧
      (∀ k : Fin 8, writesRegister i k = false → t'.getReg k = rs[k] ∧ t.getReg k = s.getReg k)

/-- R17. `RUN` is true at reset; `HLT` is the only instruction that writes it, and no fault does; no instruction reads it:
another value of it changes no other part of the outcome; and the loop tests it, so with `RUN` false there is no step. -/
def Obligations.RunningFlagWrittenByHltOnly : Prop :=
  State.reset.run = true ∧
  (∀ (i : Instr) (s t : State), exec i s = .next t → t.run = (if i = .hlt then false else s.run)) ∧
  (∀ s t : State, step s = .next t → (t.run = false ↔ s.fetch = .ok .hlt)) ∧
  (∀ (i : Instr) (s t : State) (b : Bool), exec i s = .next t →
    ∃ t', exec i { s with run := b } = .next t' ∧ { t' with run := t.run } = t) ∧
  (∀ s t : State, s.run = false → step s ≠ .next t)

/-- 43_stack.md, stack discipline. `MUL`, `LDI`, `PRN` and `HLT` leave register 7 alone unless `LDI` names it; `PUSH` and
`POP` move it by one (`POP R7` from the byte it loads); nothing protects it from `LDI`, `POP` or the ALU; and neither a
region, nor address 0, nor the program's own bytes stop a `PUSH`: it completes whatever register 7 holds. That `PUSH` at 0
and `POP` at 255 wrap without a fault is the spec's decision D6 (log entry 12), and the ALU's check of its indices its
decisions D5 and D13 (log entries 8 and 13). The completion of `LDI` stated here is the one that names register 7;
`LdiCompletes` states the others. -/
def Obligations.StackPointerLeftToSoftware : Prop :=
  (∀ (i : Instr) (s t : State), exec i s = .next t →
    (i = .mul ∨ (∃ r, i = .prn r) ∨ i = .hlt ∨ ∃ r v, i = .ldi r v ∧ r ≠ 7#8) → t.getReg 7 = s.getReg 7) ∧
  (∀ (s : State) (v : Byte), ∃ t, exec (.ldi 7#8 v) s = .next t ∧ t.getReg 7 = v) ∧
  (∀ s : State, ∃ t, exec (.pop 7#8) s = .next t ∧ t.getReg 7 = s.mem.read (s.getReg 7).toNat + 1#8) ∧
  (∀ (s : State) (b : Byte) (rb : Fin 8), s.stopped = false → b.toNat = rb.val →
    (aluInvoke .add 7#8 b s).getReg 7 = s.getReg 7 + s.getReg rb) ∧
  (∀ (s : State) (r : Byte), r.toNat ≤ 7 →
    ∃ t, exec (.push r) s = .next t ∧ t.fault = s.fault ∧ t.getReg 7 = s.getReg 7 - 1#8) ∧
  (∀ (s : State) (r : Byte), r.toNat ≤ 6 →
    ∃ t, exec (.pop r) s = .next t ∧ t.fault = s.fault ∧ t.getReg 7 = s.getReg 7 + 1#8)

/-! ### The step -/

/-- 40_fetch_execute.md sections 1 and 2: on a core that is not stopped, when the bytes at `pc` decode to an instruction,
the step is that instruction's execution in that state; the handler itself moves `pc`. A byte of an instruction is the
memory's at `pc` plus its offset. -/
def Obligations.StepRunsDecodedInstruction : Prop :=
  ∀ (s : State) (i : Instr), s.run = true → s.fault = none →
    s.pc + (significantBytes i).length ≤ 256 →
    (∀ (k : Nat) (b : Byte), (significantBytes i)[k]? = some b → s.mem.read (s.pc + k) = b) →
    step s = exec i s

/-- The host's way to place an instruction (log entry 4), with 30_encoding.md section 1: on a core that is not stopped, with
room for the longest instruction at `pc`, placing a word that decodes makes the very next step run it, and placing it
changes nothing but memory. -/
def Obligations.PlacedWordRunsNext : Prop :=
  ∀ (s : State) (nbits w : Nat) (i : Instr), s.stopped = false → s.pc ≤ 253 → decodeTableWord nbits w = some i →
    step (s.withFetchWord nbits w) = exec i (s.withFetchWord nbits w) ∧
    { s.withFetchWord nbits w with mem := s.mem } = s

/-- R71. On a core that is not stopped the step first reads the opcode at `pc`; with `pc` above 255 it is the fault
`OutOfBounds(MEM, pc)`, with nothing else changed. The latter comes about only when the previous instruction ended at or
beyond the last cell and was not `HLT`. -/
def Obligations.FetchBeyondMemoryFaults : Prop :=
  (∀ s : State, s.stopped = false → 255 < s.pc → step s = .next { s with fault := some (.outOfBounds .mem s.pc) }) ∧
  (∀ s : State, s.stopped = false → s.pc ≤ 255 → ∃ rest, s.stepTransactions = .read s.pc :: rest) ∧
  (∀ p s : State, step p = .next s → s.stopped = false → 255 < s.pc →
    ∃ i, p.fetch = .ok i ∧ i ≠ .hlt ∧ p.pc ≤ 255 ∧ 255 ≤ p.pc + i.width - 1)

/-- R72 and R113. A byte that is not one of the six opcodes is the fault `UnknownInstruction` with the byte and its
address; nothing else of the state changes, the one transaction made is the read of that byte, and execution has halted:
the core is stopped, and its step answers no next state. What it answers there is `StepExactlyWhenNotStopped`'s. -/
def Obligations.UnknownByteFaultsBeforeDispatch : Prop :=
  ∀ s : State, s.stopped = false → s.pc ≤ 255 →
    s.mem.read s.pc ∉ [0x82#8, 0x47#8, 0xA2#8, 0x45#8, 0x46#8, 0x01#8] →
    ∃ t, step s = .next t ∧ t = { s with fault := some (.unknownInstruction (s.mem.read s.pc) s.pc) } ∧
      s.stepTransactions = [.read s.pc] ∧ t.stopped = true ∧ ∀ u, step t ≠ .next u

/-- 60_exceptions.md section 2: which fault a step meets, in the order of its checks, and none when no check fails. The
order is the spec's decision D9, the register check its decision D5, and that `MUL` reads no operand byte its decision
D8 (log entries 8, 9 and 11). -/
def Obligations.FaultChecksInOrder : Prop :=
  ∀ s t : State, step s = .next t →
    t.fault =
      if 255 < s.pc then some (.outOfBounds .mem s.pc)
      else if s.mem.read s.pc ∉ [0x82#8, 0x47#8, 0xA2#8, 0x45#8, 0x46#8, 0x01#8] then
        some (.unknownInstruction (s.mem.read s.pc) s.pc)
      else if s.mem.read s.pc = 0xA2#8 ∨ s.mem.read s.pc = 0x01#8 then none
      else if 255 < s.pc + 1 then some (.outOfBounds .mem (s.pc + 1))
      else if s.mem.read s.pc = 0x82#8 ∧ 255 < s.pc + 2 then some (.outOfBounds .mem (s.pc + 2))
      else if 7 < (s.mem.read (s.pc + 1)).toNat then some (.outOfBounds .reg (s.mem.read (s.pc + 1)).toNat)
      else none

/-- 40_fetch_execute.md sections 1 and 2 (stopping on `FAULT` is the spec's decision D11; that the model answers a fault of
the interface there is log entry 3): a step answers a next state exactly when `RUN` is set and no fault is recorded, it is
never refused, and otherwise it answers why the core stands. -/
def Obligations.StepExactlyWhenNotStopped : Prop :=
  ∀ s : State,
    ((∃ t, step s = .next t) ↔ s.run = true ∧ s.fault = none) ∧
    (∀ k, step s = .fault (.recorded k) ↔ s.fault = some k) ∧
    (step s = .fault .halted ↔ s.run = false ∧ s.fault = none) ∧
    (∀ r, step s ≠ .refused r)

/-- 40_fetch_execute.md section 2 and 60_exceptions.md section 3: a step either completes without a fault or changes
nothing but `FAULT` (the spec's decision D9, log entry 9); a completed one adds the width of the table's row to `pc`. -/
def Obligations.StepIsAllOrNothing : Prop :=
  ∀ s t : State, step s = .next t →
    (t.fault ≠ none → t = { s with fault := t.fault }) ∧
    (t.fault = none → ∃ row, lookup (s.mem.read s.pc) = some row ∧ s.pc ≤ 255 ∧ t.pc = s.pc + row.format.width)

/-- 60_exceptions.md section 1. Every fault is fatal, in a step and in an invocation of the ALU: after it the core has no
step, no run of the loop changes anything, `pc` has gone nowhere, and the exit code is not zero. That `FAULT` stops the
core is the spec's decision D11 (log entry 6), that starting the loop then does nothing its decision D19, that a fault
leaves `pc` its decision D9 (log entry 9), and that the step of a stopped core answers the recorded fault is the model's
choice (log entry 3). -/
def Obligations.FaultIsFatal : Prop :=
  ∀ (s t : State) (k : FaultRecord), s.stopped = false → (step s = .next t ∨ ∃ op a b, aluInvoke op a b s = t) →
    t.fault = some k →
    step t = .fault (.recorded k) ∧ (∀ n, runLoop n t = t) ∧ t.pc = s.pc ∧ ∃ c, t.exitCode = some c ∧ c ≠ 0

/-- R101. After `HLT` the core is stopped: no further instruction is fetched, whatever bytes follow, and its step answers no
next state; the end is a normal completion with exit code 0, the loop changes nothing any more, and no invocation of the
ALU sets `RUN` again. What the step answers there is `StepExactlyWhenNotStopped`'s. -/
def Obligations.HltStopsTheCore : Prop :=
  ∀ s t : State, s.stopped = false → s.fetch = .ok .hlt → step s = .next t →
    t.run = false ∧ t.stopped = true ∧ (∀ u, step t ≠ .next u) ∧ t.stepTransactions = [] ∧
    t.normalCompletion = true ∧ t.exitCode = some 0 ∧
    (∀ n, runLoop n t = t) ∧ ∀ op a b, (aluInvoke op a b t).run = false

/-- 10_state.md section 4 and 20_memory.md section 9 (conflict C8): of all steps only a `PUSH` changes memory, and it
changes the one cell below the stack pointer. -/
def Obligations.OnlyPushWritesMemory : Prop :=
  ∀ (s t : State) (a : Nat), step s = .next t → t.mem.read a ≠ s.mem.read a →
    s.mem.read s.pc = 0x45#8 ∧ a = (s.getReg 7 - 1#8).toNat

/-- 10_state.md sections 5 and 6 (the history is the spec's decision D14): a step leaves the output as it is, or it is a
`PRN` and appends the named register's byte. -/
def Obligations.OutputGrowsByPrnOnly : Prop :=
  ∀ s t : State, step s = .next t →
    t.out = s.out ∨
    (s.mem.read s.pc = 0x47#8 ∧ ∃ r : Fin 8, (s.mem.read (s.pc + 1)).toNat = r.val ∧ t.out = s.out ++ [s.getReg r])

/-- 42_mul_alu.md, the ALU entry point (derived there): no step of the loop records `UnsupportedOperation`. -/
def Obligations.NoStepRaisesUnsupportedOperation : Prop :=
  ∀ (s t : State) (name : String), step s = .next t → t.fault ≠ some (.unsupportedOperation name)

/-- 40_fetch_execute.md section 2: the step is the spec's pseudo-code, in which each handler reads its operands itself and
every check stands where the spec writes it. The pseudo-code rests on the spec's decisions D5 to D9. -/
def Obligations.StepIsThePseudoCode : Prop :=
  ∀ s : State, s.run = true → s.fault = none →
    step s = .next (match pseudoStep s with
      | .ok t => t
      | .error k => { s with fault := some k })

/-! ### The interfaces -/

/-- 20_memory.md section 1 and 80_interfaces.md section 1: the transactions of a step, in order, for each instruction with
its bytes in memory and its register byte legal; and no transaction has an address above 255. The order is the spec's
decision D9, that `MUL` makes none its decision D8 (log entries 9 and 11). -/
def Obligations.TransactionsInOrder : Prop :=
  ∀ s : State, s.stopped = false →
    (s.mem.read s.pc = 0x82#8 → s.pc + 2 ≤ 255 →
      s.stepTransactions = [.read s.pc, .read (s.pc + 1), .read (s.pc + 2)]) ∧
    (∀ r : Fin 8, s.mem.read s.pc = 0x47#8 → s.pc + 1 ≤ 255 → (s.mem.read (s.pc + 1)).toNat = r.val →
      s.stepTransactions = [.read s.pc, .read (s.pc + 1), .emit (s.getReg r)]) ∧
    (s.mem.read s.pc = 0xA2#8 → s.pc ≤ 255 → s.stepTransactions = [.read s.pc]) ∧
    (∀ r : Fin 8, s.mem.read s.pc = 0x45#8 → s.pc + 1 ≤ 255 → (s.mem.read (s.pc + 1)).toNat = r.val →
      s.stepTransactions = [.read s.pc, .read (s.pc + 1),
        .write (s.getReg 7 - 1#8).toNat (if r = 7 then s.getReg 7 - 1#8 else s.getReg r)]) ∧
    (∀ r : Fin 8, s.mem.read s.pc = 0x46#8 → s.pc + 1 ≤ 255 → (s.mem.read (s.pc + 1)).toNat = r.val →
      s.stepTransactions = [.read s.pc, .read (s.pc + 1), .read (s.getReg 7).toNat]) ∧
    (s.mem.read s.pc = 0x01#8 → s.pc ≤ 255 → s.stepTransactions = [.read s.pc]) ∧
    (∀ a, .read a ∈ s.stepTransactions → a ≤ 255) ∧ (∀ a v, .write a v ∈ s.stepTransactions → a ≤ 255)

/-- 80_interfaces.md sections 1 and 2: what a step does to memory and to the output is what its transactions say, no more
and no less. -/
def Obligations.StepEffectsAreItsTransactions : Prop :=
  ∀ s t : State, step s = .next t →
    t.mem = s.mem.applyTransactions s.stepTransactions ∧ t.out = s.out ++ emittedBytes s.stepTransactions

/-- 20_memory.md section 1 and 80_interfaces.md section 1: a step learns nothing of memory but the cells it reads in its
transactions. With any other memory that agrees on those cells the transactions and the outcome are the same, and the same
cells are written. That `MUL`'s operand bytes are not among them is the spec's decision D8 (log entry 11). -/
def Obligations.StepDependsOnlyOnCellsItReads : Prop :=
  ∀ (s t : State) (m : Memory), step s = .next t →
    (∀ a, .read a ∈ s.stepTransactions → m.read a = s.mem.read a) →
    { s with mem := m }.stepTransactions = s.stepTransactions ∧
    step { s with mem := m } = .next { t with mem := m.applyTransactions s.stepTransactions }

/-- 42_mul_alu.md, `ADD`, and 80_interfaces.md section 6 (the index checks are the spec's decisions D5 and D13): on a core
that is not stopped, with legal indices, `ADD` completes: the first register takes the low 8 bits of the sum, and nothing
else changes, `pc` and memory included. -/
def Obligations.AluAddCompletes : Prop :=
  ∀ (s : State) (a b : Byte) (ra rb : Fin 8), s.stopped = false → a.toNat = ra.val → b.toNat = rb.val →
    ((aluInvoke .add a b s).getReg ra).toNat = ((s.getReg ra).toNat + (s.getReg rb).toNat) % 256 ∧
    (∀ k, k ≠ ra → (aluInvoke .add a b s).getReg k = s.getReg k) ∧
    { aluInvoke .add a b s with regs := s.regs } = s

/-- 42_mul_alu.md, the ALU entry point (the supported set and the order of the checks are the spec's decision D13, the
register fault D5, and that a stopped core is left alone D19): another name is `UnsupportedOperation` before any index is
looked at, then the first index is checked, then the second, and no register changes; a stopped core does not change. -/
def Obligations.AluFaultsInOrder : Prop :=
  ∀ (s : State) (op : AluOp) (a b : Byte),
    (s.stopped = true → aluInvoke op a b s = s) ∧
    (s.stopped = false →
      (∀ name h, op = .other name h → aluInvoke op a b s = { s with fault := some (.unsupportedOperation name) }) ∧
      (op = .add → 7 < a.toNat → aluInvoke op a b s = { s with fault := some (.outOfBounds .reg a.toNat) }) ∧
      (op = .add → a.toNat ≤ 7 → 7 < b.toNat →
        aluInvoke op a b s = { s with fault := some (.outOfBounds .reg b.toNat) }))

/-- 60_exceptions.md section 1: the exit code of a stopped core, and none while it runs. The numbers are the spec's
decision D10 (log entry 10). -/
def Obligations.ExitCodeTable : Prop :=
  ∀ s : State,
    (s.exitCode = none ↔ s.stopped = false) ∧
    (s.exitCode = some 0 ↔ s.run = false ∧ s.fault = none) ∧
    (s.exitCode = some 1 ↔ ∃ op a, s.fault = some (.unknownInstruction op a)) ∧
    (s.exitCode = some 2 ↔ ∃ space i, s.fault = some (.outOfBounds space i)) ∧
    (s.exitCode = some 3 ↔ ∃ name, s.fault = some (.unsupportedOperation name))

/-- 70_reset_and_hazards.md section 1 (refusing a longer program is the spec's decision D16, log entry 16): on a core that
is not stopped a program of at most 256 bytes is loaded from address 0 on, byte `i` at `M[i]` truncated to 8 bits, every
other cell as before and nothing else changed; on a stopped core such a load changes nothing (DEDUCED, log entry 21); a
longer program is refused on either. -/
def Obligations.LoadPlacesProgram : Prop :=
  ∀ (prog : List Nat) (s : State),
    (s.stopped = false → prog.length ≤ 256 → ∃ t, load prog s = .next t ∧ { t with mem := s.mem } = s ∧
      (∀ (i v : Nat), prog[i]? = some v → (t.mem.read i).toNat = v % 256) ∧
      ∀ a, prog.length ≤ a → t.mem.read a = s.mem.read a) ∧
    (s.stopped = true → prog.length ≤ 256 → load prog s = .next s) ∧
    (256 < prog.length → load prog s = .refused (.programTooLong prog.length))

/-! ### Sequences of instructions -/

/-- 41_ldi_prn.md, laws of the pair (derived there): `LDI Rn, v` then `PRN Rn`, both wholly below 256, emits exactly `v`;
afterwards the register holds `v`, `pc` has advanced by 5, and nothing else has changed. -/
def Obligations.LdiThenPrnEmitsTheValue : Prop :=
  ∀ (s : State) (n : Fin 8) (v : Byte), s.stopped = false → s.pc + 4 ≤ 255 →
    s.mem.read s.pc = 0x82#8 → (s.mem.read (s.pc + 1)).toNat = n.val → s.mem.read (s.pc + 2) = v →
    s.mem.read (s.pc + 3) = 0x47#8 → (s.mem.read (s.pc + 4)).toNat = n.val →
    ∃ t u, step s = .next t ∧ step t = .next u ∧ u.out = s.out ++ [v] ∧ u.getReg n = v ∧
      (∀ k, k ≠ n → u.getReg k = s.getReg k) ∧ u.pc = s.pc + 5 ∧ u.mem = s.mem ∧ u.run = s.run ∧ u.fault = s.fault

/-- 43_stack.md, stack discipline (derived there; wrap by the spec's decision D6): `PUSH r` then `POP r2` restores the
value and the stack pointer for registers 0 to 6, for every stack pointer; `PUSH R7` gives back the decremented pointer;
`POP R7` leaves the pushed value plus 1 in register 7. -/
def Obligations.PushThenPopRestores : Prop :=
  ∀ (s : State) (r r2 : Fin 8), ∃ u, execAll [.push (regByte r), .pop (regByte r2)] s = .next u ∧
    u.pc = s.pc + 4 ∧ (∀ k, k ≠ r2 → k ≠ 7 → u.getReg k = s.getReg k) ∧
    (r ≠ 7 → r2 ≠ 7 → u.getReg r2 = s.getReg r ∧ u.getReg 7 = s.getReg 7) ∧
    (r = 7 → r2 ≠ 7 → u.getReg r2 = s.getReg 7 - 1#8 ∧ u.getReg 7 = s.getReg 7) ∧
    (r ≠ 7 → r2 = 7 → u.getReg 7 = s.getReg r + 1#8) ∧
    (r = 7 → r2 = 7 → u.getReg 7 = s.getReg 7)

/-- 43_stack.md, stack discipline (derived there): last in, first out. Two pushes and two pops of registers 0 to 6 give
the values back in reverse order, and register 7 is back at its first value. -/
def Obligations.StackIsLastInFirstOut : Prop :=
  ∀ (s : State) (a b c d : Fin 8), a ≠ 7 → b ≠ 7 → c ≠ 7 → d ≠ 7 →
    ∃ u, execAll [.push (regByte a), .push (regByte b), .pop (regByte c), .pop (regByte d)] s = .next u ∧
      (c ≠ d → u.getReg c = s.getReg b) ∧ u.getReg d = s.getReg a ∧ u.getReg 7 = s.getReg 7

/-- 43_stack.md, stack discipline (the wrap below 0 is the spec's decision D6): any row of at most 256 pushes of registers
0 to 6 completes; register 7 ends lower by their number, mod 256, and push number `j + 1` has stored its register's value
at the old stack pointer less `j + 1`, mod 256, where it still stands at the end. -/
def Obligations.RepeatedPushesDescend : Prop :=
  ∀ (s : State) (rs : List (Fin 8)), (∀ r ∈ rs, r ≠ 7) → rs.length ≤ 256 →
    ∃ t, execAll (rs.map fun r => .push (regByte r)) s = .next t ∧
      t.getReg 7 = s.getReg 7 - BitVec.ofNat 8 rs.length ∧ (∀ k, k ≠ 7 → t.getReg k = s.getReg k) ∧
      ∀ (j : Nat) (r : Fin 8), rs[j]? = some r →
        t.mem.read (s.getReg 7 - BitVec.ofNat 8 (j + 1)).toNat = s.getReg r

/-- 20_memory.md section 8 (the spec's decision D12, log entry 15): a `PUSH` that stores to the byte right after itself has
that byte fetched by the very next step. If it is the opcode of `HLT` the core halts, and if it is no opcode the fault
names it. -/
def Obligations.PushedByteIsFetchedNext : Prop :=
  ∀ (s : State) (r : Fin 8) (v : Byte), s.stopped = false → s.pc + 2 ≤ 255 → s.mem.read s.pc = 0x45#8 →
    (s.mem.read (s.pc + 1)).toNat = r.val → (s.getReg 7 - 1#8).toNat = s.pc + 2 →
    v = (if r = 7 then s.getReg 7 - 1#8 else s.getReg r) →
    ∃ t, step s = .next t ∧ t.pc = s.pc + 2 ∧ t.mem.read t.pc = v ∧
      (v = 0x01#8 → ∃ u, step t = .next u ∧ u.run = false ∧ u.fault = none) ∧
      (v ∉ [0x82#8, 0x47#8, 0xA2#8, 0x45#8, 0x46#8, 0x01#8] →
        ∃ u, step t = .next u ∧ u.fault = some (.unknownInstruction v (s.pc + 2)))

/-! ### Every run, every reachable state -/

/-- 40_fetch_execute.md section 4 (derived there): from every state, whatever its memory holds, the loop is at a stop
within 129 steps, and hence within the 257 of the coarser bound; it ends halted or with a fault recorded. That `pc` passes
255 without a wrap is the spec's decision D3 (log entry 2), and that `FAULT` stops the loop its decision D11 (log entry 6).
-/
def Obligations.EveryRunStopsWithin129Steps : Prop :=
  ∀ s : State, (runLoop 129 s).stopped = true ∧ ∀ n, 129 ≤ n → runLoop n s = runLoop 129 s

/-- 10_state.md sections 2, 3 and 6 (derived there; the spec's decisions D3 and D11): every step keeps the invariant,
from every state that has it. Its clause that memory is canonical is the model's choice of how to hold the 256 cells
(DESIGN CHOICE, log entry 1) and no rule of the spec. -/
def Obligations.StepKeepsInvariant : Prop :=
  ∀ s t : State, s.Inv → step s = .next t → t.Inv

/-- 10_state.md sections 6 and 7 (`FAULT` none is the spec's decision D11): the state after reset has the invariant. Its
clause that memory is canonical is the model's choice (DESIGN CHOICE, log entry 1) and no rule of the spec. -/
def Obligations.ResetHasInvariant : Prop := State.reset.Inv

/-- 10_state.md section 6 and 80_interfaces.md section 9 (derived there): every state the core can be in, after reset, any
loads, any invocations of the ALU before the run, and any steps, has the invariant. That memory is canonical is the model's
choice (DESIGN CHOICE, log entry 1); that loads and invocations come before the run in any order and number is log entry 14,
and that a load on a core already stopped does nothing log entry 21 (both DEDUCED). -/
def Obligations.ReachableStatesHaveInvariant : Prop :=
  ∀ s : State, Reachable s → s.Inv

/-- 10_state.md section 6, (d) and (e) (derived there), and 40_fetch_execute.md section 1: whatever steps, loads and
invocations of the ALU follow one another, a core that is stopped stays in every part of its state as it is, a run of the
loop included, and the output only grows. That `FAULT` stops the core is the spec's decision D11, that steps, invocations
and the start of the loop then have no effect its decision D19, and that a load has none is DEDUCED (log entry 21). That
they may come in any order is more than the environment does (log entry 14). -/
def Obligations.StoppedCoreStandsAndOutputGrows : Prop :=
  ∀ s t : State, Later s t →
    (s.stopped = true → t = s ∧ ∀ n, runLoop n t = s) ∧ ∃ emitted, t.out = s.out ++ emitted
end

