-- ==== Sys2Proof/Laws/Decode.lean ====
section
/-! SUPPORT. The laws of the dispatch table and of the decoder. -/

namespace Sys2Proof

/-- The six opcode bytes find their rows. -/
theorem lookup_ldi : lookup 0x82#8 = some ⟨.LDI, 0x82#8, .opRI⟩ := rfl
theorem lookup_prn : lookup 0x47#8 = some ⟨.PRN, 0x47#8, .opR⟩ := rfl
theorem lookup_mul : lookup 0xA2#8 = some ⟨.MUL, 0xA2#8, .opXX⟩ := rfl
theorem lookup_push : lookup 0x45#8 = some ⟨.PUSH, 0x45#8, .opR⟩ := rfl
theorem lookup_pop : lookup 0x46#8 = some ⟨.POP, 0x46#8, .opR⟩ := rfl
theorem lookup_hlt : lookup 0x01#8 = some ⟨.HLT, 0x01#8, .op⟩ := rfl

/-- A byte is one of the six opcodes with its row, or it has no row (R55, R57). -/
theorem lookup_cases (op : Byte) :
    (op = 0x82#8 ∨ op = 0x47#8 ∨ op = 0xA2#8 ∨ op = 0x45#8 ∨ op = 0x46#8 ∨ op = 0x01#8) ∨
    (lookup op = none ∧ op ≠ 0x82#8 ∧ op ≠ 0x47#8 ∧ op ≠ 0xA2#8 ∧ op ≠ 0x45#8 ∧ op ≠ 0x46#8 ∧ op ≠ 0x01#8) := by
  by_cases h : op = 0x82#8 ∨ op = 0x47#8 ∨ op = 0xA2#8 ∨ op = 0x45#8 ∨ op = 0x46#8 ∨ op = 0x01#8
  · exact .inl h
  · push Not at h
    refine .inr ⟨?_, h⟩
    simp [lookup, dispatchTable, h.1.symm, h.2.1.symm, h.2.2.1.symm, h.2.2.2.1.symm, h.2.2.2.2.1.symm, h.2.2.2.2.2.symm]

/-- A byte with no row is none of the six. -/
theorem lookup_eq_none {op : Byte} :
    lookup op = none ↔
      op ≠ 0x82#8 ∧ op ≠ 0x47#8 ∧ op ≠ 0xA2#8 ∧ op ≠ 0x45#8 ∧ op ≠ 0x46#8 ∧ op ≠ 0x01#8 := by
  rcases lookup_cases op with h | ⟨h, hne⟩
  · rcases h with rfl | rfl | rfl | rfl | rfl | rfl <;> decide
  · exact ⟨fun _ => hne, fun _ => h⟩

/-- A row that is found belongs to the byte and carries its mnemonic's code and format. -/
theorem lookup_some {op : Byte} {row : OpRow} (h : lookup op = some row) :
    op = row.mnemonic.code ∧ row = ⟨row.mnemonic, row.mnemonic.code, row.mnemonic.format⟩ := by
  rcases lookup_cases op with hop | ⟨hnone, -⟩
  · rcases hop with rfl | rfl | rfl | rfl | rfl | rfl <;> (cases h; exact ⟨rfl, rfl⟩)
  · simp [hnone] at h

@[simp] theorem operandByte_ok {bs : List Byte} {k : Nat} {b : Byte} (h : bs[k]? = some b) :
    operandByte bs k = .ok b := by simp [operandByte, h]

@[simp] theorem operandByte_error {bs : List Byte} {k : Nat} (h : bs[k]? = none) :
    operandByte bs k = .error (.missingByte k) := by simp [operandByte, h]

/-- Every width is that of the mnemonic's format, 1 to 3 bytes (R50). -/
theorem width_bounds (i : Instr) : 1 ≤ i.width ∧ i.width ≤ maxWidth := by
  cases i <;> simp [Instr.width, Instr.mnemonic, Mnemonic.format, Format.width, maxWidth]

/-- A completed instruction other than `HLT` is at least 2 bytes wide (R77). -/
theorem two_le_width {i : Instr} (h : i ≠ .hlt) : 2 ≤ i.width := by
  cases i <;> simp [Instr.width, Instr.mnemonic, Mnemonic.format, Format.width] at h ⊢

/-- Decoding from the significant bytes on: whatever follows them plays no part (R54). -/
theorem decode_significantBytes (i : Instr) (rest : List Byte) : decode (significantBytes i ++ rest) = .ok i := by
  cases i <;> rfl

end Sys2Proof
end

