-- ==== Sys2Proof/Laws/Memory.lean ====
section
/-! SUPPORT. The laws of memory: a read after a write, and the canonical form, which every memory operation keeps and
which makes equal memories equal data. -/

namespace Sys2Proof.Machine

@[simp] theorem read_nil (a : Nat) : Memory.read [] a = Config.memReset := rfl

theorem read_erase_self (m : Memory) (a : Nat) : (m.erase a).read a = Config.memReset := by
  induction m with
  | nil => rfl
  | cons c rest ih =>
    obtain ⟨k, v⟩ := c
    by_cases h : k = a <;> simp [Memory.erase, Memory.read, h, ih]

theorem read_erase_of_ne {a b : Nat} (h : b ≠ a) (m : Memory) : (m.erase a).read b = m.read b := by
  induction m with
  | nil => rfl
  | cons c rest ih =>
    obtain ⟨k, v⟩ := c
    by_cases hk : k = a
    · subst hk; simp [Memory.erase, Memory.read, ih, Ne.symm h]
    · simp [Memory.erase, Memory.read, hk, ih]

theorem read_insert_of_ne {a b : Nat} (h : b ≠ a) (m : Memory) (v : Byte) : (m.insert a v).read b = m.read b := by
  induction m with
  | nil => simp [Memory.insert, Memory.read, Ne.symm h]
  | cons c rest ih =>
    obtain ⟨k, w⟩ := c
    by_cases hk : a < k <;> simp [Memory.insert, Memory.read, hk, ih, Ne.symm h]

theorem read_insert_erase_self (m : Memory) (a : Nat) (v : Byte) : ((m.erase a).insert a v).read a = v := by
  induction m with
  | nil => simp [Memory.erase, Memory.insert, Memory.read]
  | cons c rest ih =>
    obtain ⟨k, w⟩ := c
    by_cases hk : k = a
    · simpa [Memory.erase, hk] using ih
    · by_cases hl : a < k <;> simp [Memory.erase, Memory.insert, Memory.read, hk, hl, ih]

/-- A read after a write: the byte written at its address, every other address as before. It holds of every list, in
canonical form or not. -/
theorem read_write (m : Memory) (a b : Nat) (v : Byte) : (m.write a v).read b = if b = a then v else m.read b := by
  unfold Memory.write
  by_cases hb : b = a
  · subst hb
    by_cases hv : v = Config.memReset
    · simp [hv, read_erase_self]
    · simp [hv, read_insert_erase_self]
  · by_cases hv : v = Config.memReset
    · simp [hv, hb, read_erase_of_ne hb]
    · simp [hv, hb, read_insert_of_ne hb, read_erase_of_ne hb]

/-! ### The canonical form -/

/-- What the canonical form says of a list with a first entry. -/
theorem wfFrom_cons {lo k : Nat} {v : Byte} {rest : Memory} :
    Memory.wfFrom lo ((k, v) :: rest) = true ↔
      lo ≤ k ∧ k < Config.memSize ∧ v ≠ Config.memReset ∧ Memory.wfFrom (k + 1) rest = true := by
  simp [Memory.wfFrom, and_assoc]

theorem wfFrom_weaken {lo hi : Nat} (h : lo ≤ hi) : ∀ {m : Memory}, m.wfFrom hi = true → m.wfFrom lo = true
  | [], _ => rfl
  | (_, _) :: _, hm => by
    rw [wfFrom_cons] at hm ⊢
    exact ⟨h.trans hm.1, hm.2⟩

theorem read_below {m : Memory} {lo a : Nat} (hm : m.wfFrom lo = true) (h : a < lo) : m.read a = Config.memReset := by
  induction m generalizing lo with
  | nil => rfl
  | cons c rest ih =>
    obtain ⟨k, v⟩ := c
    rw [wfFrom_cons] at hm
    simp [Memory.read, show k ≠ a by omega, ih hm.2.2.2 (by omega)]

theorem erase_wfFrom {m : Memory} {lo : Nat} (hm : m.wfFrom lo = true) (a : Nat) : (m.erase a).wfFrom lo = true := by
  induction m generalizing lo with
  | nil => rfl
  | cons c rest ih =>
    obtain ⟨k, v⟩ := c
    rw [wfFrom_cons] at hm
    by_cases hk : k = a
    · simpa [Memory.erase, hk] using wfFrom_weaken (by omega) (ih hm.2.2.2)
    · simp only [Memory.erase, hk, if_false, wfFrom_cons]
      exact ⟨hm.1, hm.2.1, hm.2.2.1, ih hm.2.2.2⟩

/-- Inserting an entry at an address that is not listed keeps the canonical form. -/
theorem insert_erase_wfFrom {m : Memory} {lo a : Nat} {v : Byte} (hm : m.wfFrom lo = true) (hlo : lo ≤ a)
    (ha : a < Config.memSize) (hv : v ≠ Config.memReset) : ((m.erase a).insert a v).wfFrom lo = true := by
  induction m generalizing lo with
  | nil => simp only [Memory.erase, Memory.insert, wfFrom_cons]; exact ⟨hlo, ha, hv, rfl⟩
  | cons c rest ih =>
    obtain ⟨k, w⟩ := c
    rw [wfFrom_cons] at hm
    by_cases hk : k = a
    · have h := wfFrom_weaken (Nat.le_succ k) hm.2.2.2
      simpa [Memory.erase, hk] using ih (wfFrom_weaken (by omega) hm.2.2.2) hlo
    · simp only [Memory.erase, hk, if_false, Memory.insert]
      by_cases hl : a < k
      · simp only [hl, if_true, wfFrom_cons]
        exact ⟨hlo, ha, hv, by omega, hm.2.1, hm.2.2.1, erase_wfFrom hm.2.2.2 a⟩
      · simp only [hl, if_false, wfFrom_cons]
        exact ⟨hm.1, hm.2.1, hm.2.2.1, ih hm.2.2.2 (by omega)⟩

/-- A write inside the address space keeps the canonical form. -/
theorem write_wf {m : Memory} (hm : m.wf = true) {a : Nat} (ha : a < Config.memSize) (v : Byte) :
    (m.write a v).wf = true := by
  unfold Memory.write
  by_cases hv : v = Config.memReset
  · simpa [hv, Memory.wf] using erase_wfFrom hm a
  · simpa [hv, Memory.wf] using insert_erase_wfFrom hm (Nat.zero_le a) ha hv

/-- Storing bytes keeps the canonical form. -/
theorem storeBytes_wf (bs : List Byte) : ∀ {m : Memory}, m.wf = true → ∀ a, (m.storeBytes a bs).wf = true := by
  induction bs with
  | nil => intro m hm a; exact hm
  | cons b bs ih =>
    intro m hm a
    unfold Memory.storeBytes
    by_cases ha : a < Config.memSize
    · simpa [ha] using ih (write_wf hm ha b) (a + 1)
    · simpa [ha] using ih hm (a + 1)

/-- Reset memory is in canonical form. -/
theorem reset_mem_wf : State.reset.mem.wf = true := rfl

end Sys2Proof.Machine
end

