-- ==== Sys2Proof/Laws/State.lean ====
section
/-! SUPPORT. One lemma per field of State per update: what the field holds after it. -/

namespace Sys2Proof.Machine

@[simp] theorem setReg_regs (s : State) (i : Fin 8) (v : Byte) : (s.setReg i v).regs = s.regs.set i v := rfl
@[simp] theorem setReg_pc (s : State) (i : Fin 8) (v : Byte) : (s.setReg i v).pc = s.pc := rfl
@[simp] theorem setReg_run (s : State) (i : Fin 8) (v : Byte) : (s.setReg i v).run = s.run := rfl
@[simp] theorem setReg_fault (s : State) (i : Fin 8) (v : Byte) : (s.setReg i v).fault = s.fault := rfl
@[simp] theorem setReg_mem (s : State) (i : Fin 8) (v : Byte) : (s.setReg i v).mem = s.mem := rfl
@[simp] theorem setReg_out (s : State) (i : Fin 8) (v : Byte) : (s.setReg i v).out = s.out := rfl

@[simp] theorem setMem_regs (s : State) (m : Memory) : (s.setMem m).regs = s.regs := rfl
@[simp] theorem setMem_pc (s : State) (m : Memory) : (s.setMem m).pc = s.pc := rfl
@[simp] theorem setMem_run (s : State) (m : Memory) : (s.setMem m).run = s.run := rfl
@[simp] theorem setMem_fault (s : State) (m : Memory) : (s.setMem m).fault = s.fault := rfl
@[simp] theorem setMem_mem (s : State) (m : Memory) : (s.setMem m).mem = m := rfl
@[simp] theorem setMem_out (s : State) (m : Memory) : (s.setMem m).out = s.out := rfl

@[simp] theorem emit_regs (s : State) (v : Byte) : (s.emit v).regs = s.regs := rfl
@[simp] theorem emit_pc (s : State) (v : Byte) : (s.emit v).pc = s.pc := rfl
@[simp] theorem emit_run (s : State) (v : Byte) : (s.emit v).run = s.run := rfl
@[simp] theorem emit_fault (s : State) (v : Byte) : (s.emit v).fault = s.fault := rfl
@[simp] theorem emit_mem (s : State) (v : Byte) : (s.emit v).mem = s.mem := rfl
@[simp] theorem emit_out (s : State) (v : Byte) : (s.emit v).out = s.out ++ [v] := rfl

@[simp] theorem advance_regs (s : State) (n : Nat) : (s.advance n).regs = s.regs := rfl
@[simp] theorem advance_pc (s : State) (n : Nat) : (s.advance n).pc = s.pc + n := rfl
@[simp] theorem advance_run (s : State) (n : Nat) : (s.advance n).run = s.run := rfl
@[simp] theorem advance_fault (s : State) (n : Nat) : (s.advance n).fault = s.fault := rfl
@[simp] theorem advance_mem (s : State) (n : Nat) : (s.advance n).mem = s.mem := rfl
@[simp] theorem advance_out (s : State) (n : Nat) : (s.advance n).out = s.out := rfl

@[simp] theorem clearRun_regs (s : State) : s.clearRun.regs = s.regs := rfl
@[simp] theorem clearRun_pc (s : State) : s.clearRun.pc = s.pc := rfl
@[simp] theorem clearRun_run (s : State) : s.clearRun.run = false := rfl
@[simp] theorem clearRun_fault (s : State) : s.clearRun.fault = s.fault := rfl
@[simp] theorem clearRun_mem (s : State) : s.clearRun.mem = s.mem := rfl
@[simp] theorem clearRun_out (s : State) : s.clearRun.out = s.out := rfl

@[simp] theorem raise_regs (s : State) (k : FaultRecord) : (s.raise k).regs = s.regs := rfl
@[simp] theorem raise_pc (s : State) (k : FaultRecord) : (s.raise k).pc = s.pc := rfl
@[simp] theorem raise_run (s : State) (k : FaultRecord) : (s.raise k).run = s.run := rfl
@[simp] theorem raise_fault (s : State) (k : FaultRecord) : (s.raise k).fault = some k := rfl
@[simp] theorem raise_mem (s : State) (k : FaultRecord) : (s.raise k).mem = s.mem := rfl
@[simp] theorem raise_out (s : State) (k : FaultRecord) : (s.raise k).out = s.out := rfl

@[simp] theorem decSp_regs (s : State) : s.decSp.regs = s.regs.set 7 (s.regs[7] - 1#8) := rfl
@[simp] theorem decSp_pc (s : State) : s.decSp.pc = s.pc := rfl
@[simp] theorem decSp_run (s : State) : s.decSp.run = s.run := rfl
@[simp] theorem decSp_fault (s : State) : s.decSp.fault = s.fault := rfl
@[simp] theorem decSp_mem (s : State) : s.decSp.mem = s.mem := rfl
@[simp] theorem decSp_out (s : State) : s.decSp.out = s.out := rfl

@[simp] theorem incSp_regs (s : State) : s.incSp.regs = s.regs.set 7 (s.regs[7] + 1#8) := rfl
@[simp] theorem incSp_pc (s : State) : s.incSp.pc = s.pc := rfl
@[simp] theorem incSp_run (s : State) : s.incSp.run = s.run := rfl
@[simp] theorem incSp_fault (s : State) : s.incSp.fault = s.fault := rfl
@[simp] theorem incSp_mem (s : State) : s.incSp.mem = s.mem := rfl
@[simp] theorem incSp_out (s : State) : s.incSp.out = s.out := rfl

@[simp] theorem storeWordAtPc_regs (s : State) (nbits w : Nat) : (s.storeWordAtPc nbits w).regs = s.regs := rfl
@[simp] theorem storeWordAtPc_pc (s : State) (nbits w : Nat) : (s.storeWordAtPc nbits w).pc = s.pc := rfl
@[simp] theorem storeWordAtPc_run (s : State) (nbits w : Nat) : (s.storeWordAtPc nbits w).run = s.run := rfl
@[simp] theorem storeWordAtPc_fault (s : State) (nbits w : Nat) : (s.storeWordAtPc nbits w).fault = s.fault := rfl
@[simp] theorem storeWordAtPc_mem (s : State) (nbits w : Nat) : (s.storeWordAtPc nbits w).mem = s.mem.storeBytes s.pc (bytesOfWord nbits w) := rfl
@[simp] theorem storeWordAtPc_out (s : State) (nbits w : Nat) : (s.storeWordAtPc nbits w).out = s.out := rfl

/-! ### Registers -/

/-- Every index is written and read back, and a write reaches no other index (R10). -/
theorem getReg_setReg (s : State) (i k : Fin 8) (v : Byte) :
    (s.setReg i v).getReg k = if k = i then v else s.getReg k := by
  simp [State.setReg, State.getReg, Vector.getElem_set, Fin.ext_iff, eq_comm]

@[simp] theorem getReg_setReg_self (s : State) (i : Fin 8) (v : Byte) : (s.setReg i v).getReg i = v := by
  simp [getReg_setReg]

theorem getReg_setReg_of_ne {i k : Fin 8} (h : k ≠ i) (s : State) (v : Byte) :
    (s.setReg i v).getReg k = s.getReg k := by
  simp [getReg_setReg, h]

@[simp] theorem getReg_emit (s : State) (k : Fin 8) (v : Byte) : (s.emit v).getReg k = s.getReg k := rfl
@[simp] theorem getReg_advance (s : State) (k : Fin 8) (n : Nat) : (s.advance n).getReg k = s.getReg k := rfl
@[simp] theorem getReg_setMem (s : State) (k : Fin 8) (m : Memory) : (s.setMem m).getReg k = s.getReg k := rfl
@[simp] theorem getReg_clearRun (s : State) (k : Fin 8) : s.clearRun.getReg k = s.getReg k := rfl
@[simp] theorem getReg_raise (s : State) (k : Fin 8) (r : FaultRecord) : (s.raise r).getReg k = s.getReg k := rfl
@[simp] theorem sp_eq (s : State) : s.sp = s.getReg 7 := rfl
@[simp] theorem spAddress_eq (s : State) : s.spAddress = (s.getReg 7).toNat := rfl

/-- The decrement changes register 7 alone. -/
theorem getReg_decSp (s : State) (k : Fin 8) :
    s.decSp.getReg k = if k = 7 then s.getReg 7 - 1#8 else s.getReg k := getReg_setReg ..

/-- The increment changes register 7 alone. -/
theorem getReg_incSp (s : State) (k : Fin 8) :
    s.incSp.getReg k = if k = 7 then s.getReg 7 + 1#8 else s.getReg k := getReg_setReg ..

/-- Two states are equal when their registers are equal one by one and their other fields are equal. -/
theorem state_eq_of_fields {s t : State} (hr : ∀ k, s.getReg k = t.getReg k) (hp : s.pc = t.pc)
    (hn : s.run = t.run) (hf : s.fault = t.fault) (hm : s.mem = t.mem) (ho : s.out = t.out) : s = t := by
  have hv : s.regs = t.regs := Vector.ext fun i hi => hr ⟨i, hi⟩
  cases s; cases t; simp_all

end Sys2Proof.Machine
end

