-- ==== Sys2Proof/Laws/Ops.lean ====
section
/-! SUPPORT. For each shared operation, everything it can answer. -/

namespace Sys2Proof.Machine

/-- `memRead` inside the address space (R31). -/
theorem memRead_ok (s : State) {a : Nat} (h : a ≤ 255) : s.memRead a = .ok (s.mem.read a) := by
  simp [State.memRead, Config.memSize, show a < 256 by omega]

/-- `memRead` outside the address space (R31). -/
theorem memRead_error (s : State) {a : Nat} (h : 255 < a) : s.memRead a = .error (.outOfBounds .mem a) := by
  simp [State.memRead, Config.memSize, show ¬ a < 256 by omega]

/-- A byte is always an address: `memRead` at one does not fail (R23, R33). -/
theorem memRead_byte (s : State) (b : Byte) : s.memRead b.toNat = .ok (s.mem.read b.toNat) :=
  memRead_ok s (by have := b.isLt; omega)

@[simp] theorem narrow_toNat (v : Byte) : Byte.narrow v.toNat = v := by simp [Byte.narrow]

/-- A narrowed number is its remainder mod 256 (R6). -/
theorem toNat_narrow (n : Nat) : (Byte.narrow n).toNat = n % 256 := by simp [Byte.narrow]

/-- `memWrite` inside the address space (R32). -/
theorem memWrite_ok (s : State) {a : Nat} (h : a ≤ 255) (v : Nat) :
    s.memWrite a v = .ok (s.setMem (s.mem.write a (Byte.narrow v))) := by
  simp [State.memWrite, Config.memSize, show a < 256 by omega]

/-- `memWrite` outside the address space (R32). -/
theorem memWrite_error (s : State) {a : Nat} (h : 255 < a) (v : Nat) :
    s.memWrite a v = .error (.outOfBounds .mem a) := by
  simp [State.memWrite, Config.memSize, show ¬ a < 256 by omega]

/-- `memWrite` of a byte at an address that is a byte does not fail. -/
theorem memWrite_byte (s : State) (b v : Byte) :
    s.memWrite b.toNat v.toNat = .ok (s.setMem (s.mem.write b.toNat v)) := by
  rw [memWrite_ok s (by have := b.isLt; omega), narrow_toNat]

/-- `regIndex` of a legal byte (R13). -/
theorem regIndex_ok {b : Byte} {r : Fin 8} (h : b.toNat = r.val) : regIndex b = .ok r := by
  have hb : b.toNat < Config.nRegs := by simp only [Config.nRegs]; omega
  rw [regIndex, dif_pos hb]
  exact congrArg _ (Fin.ext h)

/-- `regIndex` of an illegal byte (R13). -/
theorem regIndex_error {b : Byte} (h : 7 < b.toNat) : regIndex b = .error (.outOfBounds .reg b.toNat) := by
  have hb : ¬ b.toNat < Config.nRegs := by simp only [Config.nRegs]; omega
  simp [regIndex, hb]

/-- A register byte is legal and names a register, or it is above 7. -/
theorem regByte_cases (b : Byte) : (∃ r : Fin 8, b.toNat = r.val) ∨ 7 < b.toNat := by
  by_cases h : b.toNat < 8
  · exact .inl ⟨⟨b.toNat, h⟩, rfl⟩
  · exact .inr (by omega)

@[simp] theorem settle_ok (s t : State) : settle s (.ok t) = .next t := rfl
@[simp] theorem settle_error (s : State) (k : FaultRecord) : settle s (.error k) = .next (s.raise k) := rfl

/-- A core is stopped exactly when it has a reason not to step. -/
theorem stopReason_eq_none {s : State} : s.stopReason = none ↔ s.stopped = false := by
  cases hf : s.fault <;> cases hr : s.run <;> simp [State.stopReason, State.stopped, hf, hr]

/-- A core that is not stopped has `RUN` set and no fault recorded (R70). -/
theorem stopped_eq_false {s : State} : s.stopped = false ↔ s.run = true ∧ s.fault = none := by
  cases hf : s.fault <;> cases hr : s.run <;> simp [State.stopped, hf, hr]

/-- The ALU entry point has no effect on a stopped core (D19). -/
theorem aluInvoke_stopped {s : State} (h : s.stopped = true) (op : AluOp) (a b : Byte) :
    aluInvoke op a b s = s := by
  simp [aluInvoke, h]

/-- The writes of a load, where they end, change memory only. -/
theorem writeFrom_frame : ∀ {prog : List Nat} {s t : State} {a : Nat}, s.writeFrom a prog = .ok t →
    { t with mem := s.mem } = s
  | [], s, t, a, h => by cases h; rfl
  | v :: vs, s, t, a, h => by
    simp only [State.writeFrom] at h
    split at h
    · rename_i u hu
      unfold State.memWrite at hu
      split at hu <;> cases hu
      exact congrArg (fun x : State => { x with mem := s.mem }) (writeFrom_frame h)
    · cases h

/-- Everything a load that is not refused can do: nothing on a stopped core (log entry 21), otherwise its writes (R131),
which change memory only. -/
theorem load_cases {prog : List Nat} {s t : State} (h : load prog s = .next t) :
    (s.stopped = true ∧ t = s) ∨
    (s.stopped = false ∧ s.writeFrom Config.loadBase prog = .ok t ∧ { t with mem := s.mem } = s) := by
  unfold load at h
  split at h
  · rename_i u hu
    cases hs : s.stopped with
    | true => simp only [hs, if_true, Host.Outcome.next.injEq] at h; exact .inl ⟨rfl, h.symm⟩
    | false =>
      simp only [hs, Bool.false_eq_true, if_false, Host.Outcome.next.injEq] at h
      subst h
      exact .inr ⟨rfl, hu, writeFrom_frame hu⟩
  · cases h

/-- Everything an invocation of the ALU entry point can do: nothing, a fault, or the write of one register. -/
theorem aluInvoke_cases (op : AluOp) (a b : Byte) (s : State) :
    (s.stopped = true ∧ aluInvoke op a b s = s) ∨
    (s.stopped = false ∧ ∃ k, aluInvoke op a b s = s.raise k ∧
      ((∃ name, k = .unsupportedOperation name ∧ name ≠ "ADD") ∨ ∃ c : Byte, k = .outOfBounds .reg c.toNat ∧ 7 < c.toNat)) ∨
    (s.stopped = false ∧ op = .add ∧ ∃ ra rb : Fin 8, a.toNat = ra.val ∧ b.toNat = rb.val ∧
      aluInvoke op a b s = s.setReg ra (addBytes (s.getReg ra) (s.getReg rb))) := by
  cases hs : s.stopped with
  | true => exact .inl ⟨rfl, aluInvoke_stopped hs op a b⟩
  | false =>
    refine .inr ?_
    cases op with
    | other name hn => exact .inl ⟨rfl, _, by simp [aluInvoke, hs, alu], .inl ⟨name, rfl, hn⟩⟩
    | add =>
      rcases regByte_cases a with ⟨ra, ha⟩ | ha
      · rcases regByte_cases b with ⟨rb, hb⟩ | hb
        · refine .inr ⟨rfl, rfl, ra, rb, ha, hb, ?_⟩
          simp [aluInvoke, hs, alu, aluAdd, regIndex_ok ha, regIndex_ok hb, bind, Except.bind]
        · refine .inl ⟨rfl, _, ?_, .inr ⟨b, rfl, hb⟩⟩
          simp [aluInvoke, hs, alu, aluAdd, regIndex_ok ha, regIndex_error hb, bind, Except.bind]
      · refine .inl ⟨rfl, _, ?_, .inr ⟨a, rfl, ha⟩⟩
        simp [aluInvoke, hs, alu, aluAdd, regIndex_error ha, bind, Except.bind]

end Sys2Proof.Machine
end

