-- ==== Sys2Proof/Laws/Exec.lean ====
section
/-! SUPPORT. For each instruction, everything its meaning can answer: with a legal register byte the state it completes
in, with an illegal one the fault it takes. -/

namespace Sys2Proof.Machine

/-- `LDI` with a legal register byte (R80). -/
theorem execLdi_ok {reg : Byte} {r : Fin 8} (h : reg.toNat = r.val) (imm : Byte) (s : State) :
    exec (.ldi reg imm) s = .next ((s.setReg r imm).advance 3) := by
  simp [exec, execLdi, regIndex_ok h, bind, Except.bind]

/-- `PRN` with a legal register byte (R81). -/
theorem execPrn_ok {reg : Byte} {r : Fin 8} (h : reg.toNat = r.val) (s : State) :
    exec (.prn reg) s = .next ((s.emit (s.getReg r)).advance 2) := by
  simp [exec, execPrn, regIndex_ok h, bind, Except.bind]

/-- `MUL` (R85). -/
theorem execMul_ok (s : State) :
    exec .mul s = .next ((s.setReg 0 (mulBytes (s.getReg 0) (s.getReg 1))).advance 3) := rfl

/-- `PUSH` with a legal register byte (R93). -/
theorem execPush_ok {reg : Byte} {r : Fin 8} (h : reg.toNat = r.val) (s : State) :
    exec (.push reg) s =
      .next ((s.decSp.setMem (s.mem.write s.decSp.spAddress (s.decSp.getReg r))).advance 2) := by
  simp only [exec, execPush, regIndex_ok h, bind, Except.bind, State.spAddress, memWrite_byte, settle_ok, decSp_mem]

/-- `POP` with a legal register byte (R94). -/
theorem execPop_ok {reg : Byte} {r : Fin 8} (h : reg.toNat = r.val) (s : State) :
    exec (.pop reg) s = .next ((s.setReg r (s.mem.read s.spAddress)).incSp.advance 2) := by
  simp only [exec, execPop, regIndex_ok h, bind, Except.bind, State.spAddress, memRead_byte, settle_ok]

/-- `HLT` (R100). -/
theorem execHlt_ok (s : State) : exec .hlt s = .next (s.clearRun.advance 1) := rfl

/-- `LDI` with an illegal register byte (R13). -/
theorem execLdi_error {reg : Byte} (h : 7 < reg.toNat) (imm : Byte) (s : State) :
    exec (.ldi reg imm) s = .next (s.raise (.outOfBounds .reg reg.toNat)) := by
  simp [exec, execLdi, regIndex_error h, bind, Except.bind]

/-- `PRN` with an illegal register byte (R13). -/
theorem execPrn_error {reg : Byte} (h : 7 < reg.toNat) (s : State) :
    exec (.prn reg) s = .next (s.raise (.outOfBounds .reg reg.toNat)) := by
  simp [exec, execPrn, regIndex_error h, bind, Except.bind]

/-- `PUSH` with an illegal register byte (R13). -/
theorem execPush_error {reg : Byte} (h : 7 < reg.toNat) (s : State) :
    exec (.push reg) s = .next (s.raise (.outOfBounds .reg reg.toNat)) := by
  simp [exec, execPush, regIndex_error h, bind, Except.bind]

/-- `POP` with an illegal register byte (R13). -/
theorem execPop_error {reg : Byte} (h : 7 < reg.toNat) (s : State) :
    exec (.pop reg) s = .next (s.raise (.outOfBounds .reg reg.toNat)) := by
  simp [exec, execPop, regIndex_error h, bind, Except.bind]

/-- Everything `exec` can answer, said once: a fault on the register byte, or the completion of one of the six. -/
theorem exec_cases {i : Instr} {s t : State} (h : exec i s = .next t) :
    (∃ reg : Byte, 7 < reg.toNat ∧ ((∃ imm, i = .ldi reg imm) ∨ i = .prn reg ∨ i = .push reg ∨ i = .pop reg) ∧
      t = s.raise (.outOfBounds .reg reg.toNat)) ∨
    (∃ (reg imm : Byte) (r : Fin 8), reg.toNat = r.val ∧ i = .ldi reg imm ∧ t = (s.setReg r imm).advance 3) ∨
    (∃ (reg : Byte) (r : Fin 8), reg.toNat = r.val ∧ i = .prn reg ∧ t = (s.emit (s.getReg r)).advance 2) ∨
    (i = .mul ∧ t = (s.setReg 0 (mulBytes (s.getReg 0) (s.getReg 1))).advance 3) ∨
    (∃ (reg : Byte) (r : Fin 8), reg.toNat = r.val ∧ i = .push reg ∧
      t = (s.decSp.setMem (s.mem.write s.decSp.spAddress (s.decSp.getReg r))).advance 2) ∨
    (∃ (reg : Byte) (r : Fin 8), reg.toNat = r.val ∧ i = .pop reg ∧
      t = (s.setReg r (s.mem.read s.spAddress)).incSp.advance 2) ∨
    (i = .hlt ∧ t = s.clearRun.advance 1) := by
  cases i with
  | ldi reg imm =>
    rcases regByte_cases reg with ⟨r, hr⟩ | hr
    · rw [execLdi_ok hr] at h; cases h
      exact .inr (.inl ⟨reg, imm, r, hr, rfl, rfl⟩)
    · rw [execLdi_error hr] at h; cases h
      exact .inl ⟨reg, hr, .inl ⟨imm, rfl⟩, rfl⟩
  | prn reg =>
    rcases regByte_cases reg with ⟨r, hr⟩ | hr
    · rw [execPrn_ok hr] at h; cases h
      exact .inr (.inr (.inl ⟨reg, r, hr, rfl, rfl⟩))
    · rw [execPrn_error hr] at h; cases h
      exact .inl ⟨reg, hr, .inr (.inl rfl), rfl⟩
  | mul =>
    rw [execMul_ok] at h; cases h
    exact .inr (.inr (.inr (.inl ⟨rfl, rfl⟩)))
  | push reg =>
    rcases regByte_cases reg with ⟨r, hr⟩ | hr
    · rw [execPush_ok hr] at h; cases h
      exact .inr (.inr (.inr (.inr (.inl ⟨reg, r, hr, rfl, rfl⟩))))
    · rw [execPush_error hr] at h; cases h
      exact .inl ⟨reg, hr, .inr (.inr (.inl rfl)), rfl⟩
  | pop reg =>
    rcases regByte_cases reg with ⟨r, hr⟩ | hr
    · rw [execPop_ok hr] at h; cases h
      exact .inr (.inr (.inr (.inr (.inr (.inl ⟨reg, r, hr, rfl, rfl⟩)))))
    · rw [execPop_error hr] at h; cases h
      exact .inl ⟨reg, hr, .inr (.inr (.inr rfl)), rfl⟩
  | hlt =>
    rw [execHlt_ok] at h; cases h
    exact .inr (.inr (.inr (.inr (.inr (.inr ⟨rfl, rfl⟩)))))

/-- `exec` always answers a next state: no handler faults the model or is refused (R75). -/
theorem exec_total (i : Instr) (s : State) : ∃ t, exec i s = .next t := by
  cases i with
  | ldi reg imm => exact (regByte_cases reg).elim (fun ⟨_, hr⟩ => ⟨_, execLdi_ok hr imm s⟩) fun hr => ⟨_, execLdi_error hr imm s⟩
  | prn reg => exact (regByte_cases reg).elim (fun ⟨_, hr⟩ => ⟨_, execPrn_ok hr s⟩) fun hr => ⟨_, execPrn_error hr s⟩
  | mul => exact ⟨_, execMul_ok s⟩
  | push reg => exact (regByte_cases reg).elim (fun ⟨_, hr⟩ => ⟨_, execPush_ok hr s⟩) fun hr => ⟨_, execPush_error hr s⟩
  | pop reg => exact (regByte_cases reg).elim (fun ⟨_, hr⟩ => ⟨_, execPop_ok hr s⟩) fun hr => ⟨_, execPop_error hr s⟩
  | hlt => exact ⟨_, execHlt_ok s⟩

end Sys2Proof.Machine
end

