-- ==== Sys2Proof/Laws/Step.lean ====
section
/-! SUPPORT. The laws of the fetch and of the step: what the fetch window holds, when a core steps, and everything one
step can do. -/

namespace Sys2Proof.Machine

/-- The window holds the byte at `pc + k` for each of the three offsets inside the address space, and nothing else. -/
theorem window_getElem? (s : State) (k : Nat) :
    s.window[k]? = if k < 3 ∧ s.pc + k ≤ 255 then some (s.mem.read (s.pc + k)) else none := by
  have hlen : k < min maxWidth (Config.memSize - s.pc) ↔ k < 3 ∧ s.pc + k ≤ 255 := by
    simp only [maxWidth, Config.memSize]; omega
  by_cases h : k < 3 ∧ s.pc + k ≤ 255
  · simp only [State.window, List.getElem?_map, if_pos h, List.getElem?_range (hlen.mpr h), Option.map_some]
  · have hn : (List.range (min maxWidth (Config.memSize - s.pc)))[k]? = none := by
      rw [List.getElem?_eq_none_iff, List.length_range]
      exact not_lt.mp fun hk => h (hlen.mp hk)
    simp only [State.window, List.getElem?_map, if_neg h, hn, Option.map_none]

/-- Above 255 there is nothing to fetch (R71). -/
theorem window_eq_nil {s : State} (h : 255 < s.pc) : s.window = [] := by
  rw [List.eq_nil_iff_length_eq_zero]
  simp [State.window, Config.memSize, show 256 - s.pc = 0 by omega]

/-- Inside the address space the window begins with the opcode byte. -/
theorem window_eq_cons {s : State} (h : s.pc ≤ 255) : ∃ rest, s.window = s.mem.read s.pc :: rest := by
  have h0 := window_getElem? s 0
  simp only [Nat.zero_lt_succ, Nat.add_zero, h, and_self, if_true] at h0
  cases hw : s.window with
  | nil => simp [hw] at h0
  | cons b rest =>
    simp only [hw, List.getElem?_cons_zero, Option.some.injEq] at h0
    exact ⟨rest, by rw [h0]⟩

/-- An operand byte inside the address space (R53). -/
theorem operandByte_window {s : State} {k : Nat} (hk : k < 3) (h : s.pc + k ≤ 255) :
    operandByte s.window k = .ok (s.mem.read (s.pc + k)) :=
  operandByte_ok (by rw [window_getElem?, if_pos ⟨hk, h⟩])

/-- An operand byte outside the address space (R36). -/
theorem operandByte_window_error {s : State} {k : Nat} (h : 255 < s.pc + k) :
    operandByte s.window k = .error (.missingByte k) :=
  operandByte_error (by rw [window_getElem?, if_neg (by omega)])

/-! ### The fetch, by opcode -/

theorem fetch_beyond {s : State} (h : 255 < s.pc) : s.fetch = .error (.outOfBounds .mem s.pc) := by
  simp [State.fetch, window_eq_nil h, decode]

/-- Inside the address space the fetch looks the opcode byte up and reads the operands of its row. -/
theorem decode_window {s : State} (h : s.pc ≤ 255) :
    decode s.window = match lookup (s.mem.read s.pc) with
      | none => .error (.unknownOpcode (s.mem.read s.pc))
      | some row => decodeOperands row.mnemonic s.window := by
  obtain ⟨rest, hw⟩ := window_eq_cons h
  rw [hw]; rfl

theorem fetch_unknown {s : State} (h : s.pc ≤ 255) (hop : lookup (s.mem.read s.pc) = none) :
    s.fetch = .error (.unknownInstruction (s.mem.read s.pc) s.pc) := by
  simp [State.fetch, decode_window h, hop]

theorem fetch_ldi {s : State} (h : s.pc + 2 ≤ 255) (hop : s.mem.read s.pc = 0x82#8) :
    s.fetch = .ok (.ldi (s.mem.read (s.pc + 1)) (s.mem.read (s.pc + 2))) := by
  simp [State.fetch, decode_window (by omega : s.pc ≤ 255), hop, lookup_ldi, decodeOperands,
    operandByte_window (s := s) (k := 1) (by omega) (by omega), operandByte_window (s := s) (k := 2) (by omega) (by omega),
    bind, Except.bind]

theorem fetch_ldi_at_254 {s : State} (h : s.pc = 254) (hop : s.mem.read s.pc = 0x82#8) :
    s.fetch = .error (.outOfBounds .mem 256) := by
  simp [State.fetch, decode_window (by omega : s.pc ≤ 255), hop, lookup_ldi, decodeOperands,
    operandByte_window (s := s) (k := 1) (by omega) (by omega), operandByte_window_error (s := s) (k := 2) (by omega),
    bind, Except.bind]
  omega

theorem fetch_prn {s : State} (h : s.pc + 1 ≤ 255) (hop : s.mem.read s.pc = 0x47#8) :
    s.fetch = .ok (.prn (s.mem.read (s.pc + 1))) := by
  simp [State.fetch, decode_window (by omega : s.pc ≤ 255), hop, lookup_prn, decodeOperands,
    operandByte_window (s := s) (k := 1) (by omega) (by omega), bind, Except.bind]

theorem fetch_mul {s : State} (h : s.pc ≤ 255) (hop : s.mem.read s.pc = 0xA2#8) : s.fetch = .ok .mul := by
  simp [State.fetch, decode_window h, hop, lookup_mul, decodeOperands]

theorem fetch_push {s : State} (h : s.pc + 1 ≤ 255) (hop : s.mem.read s.pc = 0x45#8) :
    s.fetch = .ok (.push (s.mem.read (s.pc + 1))) := by
  simp [State.fetch, decode_window (by omega : s.pc ≤ 255), hop, lookup_push, decodeOperands,
    operandByte_window (s := s) (k := 1) (by omega) (by omega), bind, Except.bind]

theorem fetch_pop {s : State} (h : s.pc + 1 ≤ 255) (hop : s.mem.read s.pc = 0x46#8) :
    s.fetch = .ok (.pop (s.mem.read (s.pc + 1))) := by
  simp [State.fetch, decode_window (by omega : s.pc ≤ 255), hop, lookup_pop, decodeOperands,
    operandByte_window (s := s) (k := 1) (by omega) (by omega), bind, Except.bind]

theorem fetch_hlt {s : State} (h : s.pc ≤ 255) (hop : s.mem.read s.pc = 0x01#8) : s.fetch = .ok .hlt := by
  simp [State.fetch, decode_window h, hop, lookup_hlt, decodeOperands]

/-- An opcode whose handler reads an operand byte, in the last cell of memory (R36, R115). -/
theorem fetch_operand_at_255 {s : State} (h : s.pc = 255)
    (hop : s.mem.read s.pc = 0x82#8 ∨ s.mem.read s.pc = 0x47#8 ∨ s.mem.read s.pc = 0x45#8 ∨ s.mem.read s.pc = 0x46#8) :
    s.fetch = .error (.outOfBounds .mem 256) := by
  rcases hop with hop | hop | hop | hop <;>
  · simp [State.fetch, decode_window (by omega : s.pc ≤ 255), hop, lookup_ldi, lookup_prn, lookup_push, lookup_pop,
      decodeOperands, operandByte_window_error (s := s) (k := 1) (by omega), bind, Except.bind]
    omega

/-! ### The step -/

/-- A step on a core that is not stopped (R70, R74). -/
theorem step_running {s : State} (h : s.stopped = false) :
    step s = match s.fetch with
      | .ok i => exec i s
      | .error k => .next (s.raise k) := by
  cases hf : s.fetch <;> simp [step, stopReason_eq_none.mpr h, hf]

theorem step_of_fetch_ok {s : State} {i : Instr} (h : s.stopped = false) (hf : s.fetch = .ok i) : step s = exec i s := by
  rw [step_running h, hf]

theorem step_of_fetch_error {s : State} {k : FaultRecord} (h : s.stopped = false) (hf : s.fetch = .error k) :
    step s = .next (s.raise k) := by
  rw [step_running h, hf]

/-- A stopped core answers no next state (R70). -/
theorem step_stopped {s : State} (h : s.stopped = true) : ∃ r, s.stopReason = some r ∧ step s = .fault r := by
  cases hr : s.stopReason with
  | none => rw [stopReason_eq_none.mp hr] at h; cases h
  | some r => exact ⟨r, rfl, by simp [step, hr]⟩

/-- Only a core that is not stopped steps (R70). -/
theorem running_of_step {s t : State} (h : step s = .next t) : s.stopped = false := by
  cases hs : s.stopped with
  | false => rfl
  | true =>
    obtain ⟨r, -, hr⟩ := step_stopped hs
    rw [hr] at h; cases h

/-- Everything one step can do, said once: an instruction was fetched and executed, or the fetch met a fault and it was
taken. -/
theorem step_cases {s t : State} (h : step s = .next t) :
    s.stopped = false ∧ ((∃ i, s.fetch = .ok i ∧ exec i s = .next t) ∨ ∃ k, s.fetch = .error k ∧ t = s.raise k) := by
  have hs := running_of_step h
  refine ⟨hs, ?_⟩
  rw [step_running hs] at h
  cases hf : s.fetch with
  | ok i => rw [hf] at h; exact .inl ⟨i, rfl, h⟩
  | error k => rw [hf] at h; cases h; exact .inr ⟨k, rfl, rfl⟩

/-- Everything the fetch can answer, by the opcode byte. -/
theorem fetch_cases (s : State) :
    (255 < s.pc ∧ s.fetch = .error (.outOfBounds .mem s.pc)) ∨
    (s.pc ≤ 255 ∧ lookup (s.mem.read s.pc) = none ∧ s.fetch = .error (.unknownInstruction (s.mem.read s.pc) s.pc)) ∨
    (s.pc = 255 ∧ (s.mem.read s.pc = 0x82#8 ∨ s.mem.read s.pc = 0x47#8 ∨ s.mem.read s.pc = 0x45#8 ∨
      s.mem.read s.pc = 0x46#8) ∧ s.fetch = .error (.outOfBounds .mem 256)) ∨
    (s.pc = 254 ∧ s.mem.read s.pc = 0x82#8 ∧ s.fetch = .error (.outOfBounds .mem 256)) ∨
    (s.pc + 2 ≤ 255 ∧ s.mem.read s.pc = 0x82#8 ∧
      s.fetch = .ok (.ldi (s.mem.read (s.pc + 1)) (s.mem.read (s.pc + 2)))) ∨
    (s.pc + 1 ≤ 255 ∧ s.mem.read s.pc = 0x47#8 ∧ s.fetch = .ok (.prn (s.mem.read (s.pc + 1)))) ∨
    (s.pc ≤ 255 ∧ s.mem.read s.pc = 0xA2#8 ∧ s.fetch = .ok .mul) ∨
    (s.pc + 1 ≤ 255 ∧ s.mem.read s.pc = 0x45#8 ∧ s.fetch = .ok (.push (s.mem.read (s.pc + 1)))) ∨
    (s.pc + 1 ≤ 255 ∧ s.mem.read s.pc = 0x46#8 ∧ s.fetch = .ok (.pop (s.mem.read (s.pc + 1)))) ∨
    (s.pc ≤ 255 ∧ s.mem.read s.pc = 0x01#8 ∧ s.fetch = .ok .hlt) := by
  by_cases hpc : s.pc ≤ 255
  swap
  · exact .inl ⟨by omega, fetch_beyond (by omega)⟩
  refine .inr ?_
  rcases lookup_cases (s.mem.read s.pc) with hop | ⟨hop, -⟩
  swap
  · exact .inl ⟨hpc, hop, fetch_unknown hpc hop⟩
  refine .inr ?_
  rcases hop with hop | hop | hop | hop | hop | hop
  · by_cases h2 : s.pc + 2 ≤ 255
    · exact .inr (.inr (.inl ⟨h2, hop, fetch_ldi h2 hop⟩))
    by_cases h5 : s.pc = 255
    · exact .inl ⟨h5, .inl hop, fetch_operand_at_255 h5 (.inl hop)⟩
    · exact .inr (.inl ⟨by omega, hop, fetch_ldi_at_254 (by omega) hop⟩)
  · by_cases h5 : s.pc = 255
    · exact .inl ⟨h5, .inr (.inl hop), fetch_operand_at_255 h5 (.inr (.inl hop))⟩
    · exact .inr (.inr (.inr (.inl ⟨by omega, hop, fetch_prn (by omega) hop⟩)))
  · exact .inr (.inr (.inr (.inr (.inl ⟨hpc, hop, fetch_mul hpc hop⟩))))
  · by_cases h5 : s.pc = 255
    · exact .inl ⟨h5, .inr (.inr (.inl hop)), fetch_operand_at_255 h5 (.inr (.inr (.inl hop)))⟩
    · exact .inr (.inr (.inr (.inr (.inr (.inl ⟨by omega, hop, fetch_push (by omega) hop⟩)))))
  · by_cases h5 : s.pc = 255
    · exact .inl ⟨h5, .inr (.inr (.inr hop)), fetch_operand_at_255 h5 (.inr (.inr (.inr hop)))⟩
    · exact .inr (.inr (.inr (.inr (.inr (.inr (.inl ⟨by omega, hop, fetch_pop (by omega) hop⟩))))))
  · exact .inr (.inr (.inr (.inr (.inr (.inr (.inr ⟨hpc, hop, fetch_hlt hpc hop⟩))))))

/-- On a stopped core the loop does nothing, however many steps it may take (R70, D19). -/
theorem runLoop_stopped {s : State} (h : s.stopped = true) : ∀ n, runLoop n s = s
  | 0 => rfl
  | n + 1 => by
    obtain ⟨r, -, hr⟩ := step_stopped h
    simp [runLoop, hr]

/-- One step of the loop. -/
theorem runLoop_succ {s t : State} (h : step s = .next t) (n : Nat) : runLoop (n + 1) s = runLoop n t := by
  simp [runLoop, h]

end Sys2Proof.Machine
end

