-- ==== Sys2Proof/Laws/Bus.lean ====
section
/-! SUPPORT. Everything one step of a running core can do, with the transactions it makes: fourteen forms, told apart by
`pc` and the bytes the step reads. A step has one of them, and each of them is a step. -/

namespace Sys2Proof.Machine

theorem toNat_le_255 (b : Byte) : b.toNat ≤ 255 := by have := b.isLt; omega

/-- A read in the address space is issued (R34). -/
theorem issueRead_ok (s : State) {a : Nat} (h : a ≤ 255) (go : Byte → List Transaction) :
    s.issueRead a go = .read a :: go (s.mem.read a) := by
  simp [State.issueRead, memRead_ok s h]

/-- A read out of bounds is not issued, and nothing after it (R34). -/
theorem issueRead_error (s : State) {a : Nat} (h : 255 < a) (go : Byte → List Transaction) : s.issueRead a go = [] := by
  simp [State.issueRead, memRead_error s h]

/-- A read at a byte, such as the stack pointer, is always issued (R33). -/
theorem issueRead_byte (s : State) (b : Byte) (go : Byte → List Transaction) :
    s.issueRead b.toNat go = .read b.toNat :: go (s.mem.read b.toNat) :=
  issueRead_ok s (toNat_le_255 _) go

theorem withReg_ok {b : Byte} {r : Fin 8} (h : b.toNat = r.val) (go : Fin 8 → List Transaction) :
    withReg b go = go r := by
  simp [withReg, regIndex_ok h]

theorem withReg_error {b : Byte} (h : 7 < b.toNat) (go : Fin 8 → List Transaction) : withReg b go = [] := by
  simp [withReg, regIndex_error h]

/-- The forms of a step of a running core from `s`: the next state and the transactions. -/
inductive StepForm (s : State) : State → List Transaction → Prop where
  | fetchBeyond (hp : 255 < s.pc) : StepForm s (s.raise (.outOfBounds .mem s.pc)) []
  | unknown (hp : s.pc ≤ 255) (ho : lookup (s.mem.read s.pc) = none) :
      StepForm s (s.raise (.unknownInstruction (s.mem.read s.pc) s.pc)) [.read s.pc]
  | operandBeyond (hp : s.pc = 255) (ho : s.mem.read s.pc = 0x82#8 ∨ s.mem.read s.pc = 0x47#8 ∨
      s.mem.read s.pc = 0x45#8 ∨ s.mem.read s.pc = 0x46#8) : StepForm s (s.raise (.outOfBounds .mem 256)) [.read s.pc]
  | immediateBeyond (hp : s.pc = 254) (ho : s.mem.read s.pc = 0x82#8) :
      StepForm s (s.raise (.outOfBounds .mem 256)) [.read s.pc, .read (s.pc + 1)]
  | ldi (hp : s.pc + 2 ≤ 255) (ho : s.mem.read s.pc = 0x82#8) (r : Fin 8) (hr : (s.mem.read (s.pc + 1)).toNat = r.val) :
      StepForm s ((s.setReg r (s.mem.read (s.pc + 2))).advance 3) [.read s.pc, .read (s.pc + 1), .read (s.pc + 2)]
  | ldiIllegal (hp : s.pc + 2 ≤ 255) (ho : s.mem.read s.pc = 0x82#8) (hr : 7 < (s.mem.read (s.pc + 1)).toNat) :
      StepForm s (s.raise (.outOfBounds .reg (s.mem.read (s.pc + 1)).toNat))
        [.read s.pc, .read (s.pc + 1), .read (s.pc + 2)]
  | prn (hp : s.pc + 1 ≤ 255) (ho : s.mem.read s.pc = 0x47#8) (r : Fin 8) (hr : (s.mem.read (s.pc + 1)).toNat = r.val) :
      StepForm s ((s.emit (s.getReg r)).advance 2) [.read s.pc, .read (s.pc + 1), .emit (s.getReg r)]
  | prnIllegal (hp : s.pc + 1 ≤ 255) (ho : s.mem.read s.pc = 0x47#8) (hr : 7 < (s.mem.read (s.pc + 1)).toNat) :
      StepForm s (s.raise (.outOfBounds .reg (s.mem.read (s.pc + 1)).toNat)) [.read s.pc, .read (s.pc + 1)]
  | mul (hp : s.pc ≤ 255) (ho : s.mem.read s.pc = 0xA2#8) :
      StepForm s ((s.setReg 0 (mulBytes (s.getReg 0) (s.getReg 1))).advance 3) [.read s.pc]
  | push (hp : s.pc + 1 ≤ 255) (ho : s.mem.read s.pc = 0x45#8) (r : Fin 8) (hr : (s.mem.read (s.pc + 1)).toNat = r.val) :
      StepForm s ((s.decSp.setMem (s.mem.write s.decSp.spAddress (s.decSp.getReg r))).advance 2)
        [.read s.pc, .read (s.pc + 1), .write s.decSp.spAddress (s.decSp.getReg r)]
  | pushIllegal (hp : s.pc + 1 ≤ 255) (ho : s.mem.read s.pc = 0x45#8) (hr : 7 < (s.mem.read (s.pc + 1)).toNat) :
      StepForm s (s.raise (.outOfBounds .reg (s.mem.read (s.pc + 1)).toNat)) [.read s.pc, .read (s.pc + 1)]
  | pop (hp : s.pc + 1 ≤ 255) (ho : s.mem.read s.pc = 0x46#8) (r : Fin 8) (hr : (s.mem.read (s.pc + 1)).toNat = r.val) :
      StepForm s ((s.setReg r (s.mem.read s.spAddress)).incSp.advance 2)
        [.read s.pc, .read (s.pc + 1), .read s.spAddress]
  | popIllegal (hp : s.pc + 1 ≤ 255) (ho : s.mem.read s.pc = 0x46#8) (hr : 7 < (s.mem.read (s.pc + 1)).toNat) :
      StepForm s (s.raise (.outOfBounds .reg (s.mem.read (s.pc + 1)).toNat)) [.read s.pc, .read (s.pc + 1)]
  | hlt (hp : s.pc ≤ 255) (ho : s.mem.read s.pc = 0x01#8) : StepForm s (s.clearRun.advance 1) [.read s.pc]

/-- The transactions of a running core in the address space, by the row of its opcode byte. -/
theorem transactions_of_row {s : State} (hs : s.stopped = false) (hp : s.pc ≤ 255) {row : OpRow}
    (hl : lookup (s.mem.read s.pc) = some row) :
    s.stepTransactions = .read s.pc :: s.handlerTransactions row.mnemonic := by
  simp [State.stepTransactions, hs, issueRead_ok s hp, hl]

/-- Each form is the step of a running core that meets its conditions. -/
theorem step_of_form {s t : State} {ts : List Transaction} (hs : s.stopped = false) (h : StepForm s t ts) :
    step s = .next t ∧ s.stepTransactions = ts := by
  cases h with
  | fetchBeyond hp =>
    exact ⟨step_of_fetch_error hs (fetch_beyond hp), by simp [State.stepTransactions, hs, issueRead_error s hp]⟩
  | unknown hp ho =>
    exact ⟨step_of_fetch_error hs (fetch_unknown hp ho), by simp [State.stepTransactions, hs, issueRead_ok s hp, ho]⟩
  | operandBeyond hp ho =>
    refine ⟨step_of_fetch_error hs (fetch_operand_at_255 hp ho), ?_⟩
    have h1 := issueRead_error s (a := s.pc + 1) (by omega)
    rcases ho with ho | ho | ho | ho <;>
    · rw [transactions_of_row hs (by omega) (row := _) (by rw [ho]; rfl)]
      simp [State.handlerTransactions, h1]
  | immediateBeyond hp ho =>
    refine ⟨step_of_fetch_error hs (fetch_ldi_at_254 hp ho), ?_⟩
    rw [transactions_of_row hs (by omega) (ho ▸ lookup_ldi)]
    simp [State.handlerTransactions, issueRead_ok s (a := s.pc + 1) (by omega),
      issueRead_error s (a := s.pc + 2) (by omega)]
  | ldi hp ho r hr =>
    refine ⟨by rw [step_of_fetch_ok hs (fetch_ldi hp ho), execLdi_ok hr], ?_⟩
    rw [transactions_of_row hs (by omega) (ho ▸ lookup_ldi)]
    simp [State.handlerTransactions, issueRead_ok s (a := s.pc + 1) (by omega), issueRead_ok s hp]
  | ldiIllegal hp ho hr =>
    refine ⟨by rw [step_of_fetch_ok hs (fetch_ldi hp ho), execLdi_error hr], ?_⟩
    rw [transactions_of_row hs (by omega) (ho ▸ lookup_ldi)]
    simp [State.handlerTransactions, issueRead_ok s (a := s.pc + 1) (by omega), issueRead_ok s hp]
  | prn hp ho r hr =>
    refine ⟨by rw [step_of_fetch_ok hs (fetch_prn hp ho), execPrn_ok hr], ?_⟩
    rw [transactions_of_row hs (by omega) (ho ▸ lookup_prn)]
    simp [State.handlerTransactions, issueRead_ok s hp, withReg_ok hr]
  | prnIllegal hp ho hr =>
    refine ⟨by rw [step_of_fetch_ok hs (fetch_prn hp ho), execPrn_error hr], ?_⟩
    rw [transactions_of_row hs (by omega) (ho ▸ lookup_prn)]
    simp [State.handlerTransactions, issueRead_ok s hp, withReg_error hr]
  | mul hp ho =>
    refine ⟨by rw [step_of_fetch_ok hs (fetch_mul hp ho), execMul_ok], ?_⟩
    rw [transactions_of_row hs hp (ho ▸ lookup_mul)]
    rfl
  | push hp ho r hr =>
    refine ⟨by rw [step_of_fetch_ok hs (fetch_push hp ho), execPush_ok hr], ?_⟩
    rw [transactions_of_row hs (by omega) (ho ▸ lookup_push)]
    simp [State.handlerTransactions, issueRead_ok s hp, withReg_ok hr]
  | pushIllegal hp ho hr =>
    refine ⟨by rw [step_of_fetch_ok hs (fetch_push hp ho), execPush_error hr], ?_⟩
    rw [transactions_of_row hs (by omega) (ho ▸ lookup_push)]
    simp [State.handlerTransactions, issueRead_ok s hp, withReg_error hr]
  | pop hp ho r hr =>
    refine ⟨by rw [step_of_fetch_ok hs (fetch_pop hp ho), execPop_ok hr], ?_⟩
    rw [transactions_of_row hs (by omega) (ho ▸ lookup_pop)]
    simp [State.handlerTransactions, issueRead_ok s hp, withReg_ok hr, issueRead_byte]
  | popIllegal hp ho hr =>
    refine ⟨by rw [step_of_fetch_ok hs (fetch_pop hp ho), execPop_error hr], ?_⟩
    rw [transactions_of_row hs (by omega) (ho ▸ lookup_pop)]
    simp [State.handlerTransactions, issueRead_ok s hp, withReg_error hr]
  | hlt hp ho =>
    refine ⟨by rw [step_of_fetch_ok hs (fetch_hlt hp ho), execHlt_ok], ?_⟩
    rw [transactions_of_row hs hp (ho ▸ lookup_hlt)]
    rfl

/-- Every running core meets the conditions of a form. -/
theorem exists_form (s : State) : ∃ t ts, StepForm s t ts := by
  have hreg := regByte_cases (s.mem.read (s.pc + 1))
  rcases fetch_cases s with ⟨hp, -⟩ | ⟨hp, ho, -⟩ | ⟨hp, ho, -⟩ | ⟨hp, ho, -⟩ | ⟨hp, ho, -⟩ | ⟨hp, ho, -⟩ | ⟨hp, ho, -⟩ |
    ⟨hp, ho, -⟩ | ⟨hp, ho, -⟩ | ⟨hp, ho, -⟩
  · exact ⟨_, _, .fetchBeyond hp⟩
  · exact ⟨_, _, .unknown hp ho⟩
  · exact ⟨_, _, .operandBeyond hp ho⟩
  · exact ⟨_, _, .immediateBeyond hp ho⟩
  · rcases hreg with ⟨r, hr⟩ | hr
    · exact ⟨_, _, .ldi hp ho r hr⟩
    · exact ⟨_, _, .ldiIllegal hp ho hr⟩
  · rcases hreg with ⟨r, hr⟩ | hr
    · exact ⟨_, _, .prn hp ho r hr⟩
    · exact ⟨_, _, .prnIllegal hp ho hr⟩
  · exact ⟨_, _, .mul hp ho⟩
  · rcases hreg with ⟨r, hr⟩ | hr
    · exact ⟨_, _, .push hp ho r hr⟩
    · exact ⟨_, _, .pushIllegal hp ho hr⟩
  · rcases hreg with ⟨r, hr⟩ | hr
    · exact ⟨_, _, .pop hp ho r hr⟩
    · exact ⟨_, _, .popIllegal hp ho hr⟩
  · exact ⟨_, _, .hlt hp ho⟩

/-- Everything a step can do: it has one of the forms, with its transactions. -/
theorem form_of_step {s t : State} (h : step s = .next t) : StepForm s t s.stepTransactions := by
  have hs := running_of_step h
  obtain ⟨t', ts, hf⟩ := exists_form s
  obtain ⟨h1, h2⟩ := step_of_form hs hf
  rw [h1] at h
  cases h
  rwa [h2]

end Sys2Proof.Machine
end

