-- ==== Sys2Proof/Laws/PerInstr.lean ====
section
/-! SUPPORT. A fact about each instruction as it is written: its encoding has as many bytes as the opcode table's width
(spec 30_encoding.md R50, R55). -/

namespace Sys2Proof.Laws.EncodeWidth

/-- The encoding of an instruction is as long as its width says. -/
def Statement (i : Instr) : Prop := (encode i).length = i.width

theorem ldi (reg imm : Byte) : Statement (.ldi reg imm) := rfl
theorem prn (reg : Byte) : Statement (.prn reg) := rfl
theorem mul : Statement .mul := rfl
theorem push (reg : Byte) : Statement (.push reg) := rfl
theorem pop (reg : Byte) : Statement (.pop reg) := rfl
theorem hlt : Statement .hlt := rfl

end Sys2Proof.Laws.EncodeWidth
end

