-- ==== Sys2Proof/Tests/Slice0.lean ====
section
/-! SUPPORT. Tests whose expected results come from the spec (95_test_vectors.md where a V or P number is named, the
opcode table of 30_encoding.md for the words), and a witness for the hypotheses of each statement. -/

namespace Sys2Proof.Tests

open Sys2Proof.Machine

/-- The reset state with bytes placed at `pc` and `pc` set there. -/
def placed (pc : Nat) (bytes : List Byte) : State :=
  { State.reset with pc := pc, mem := State.reset.mem.storeBytes pc bytes }

/-- The next state of an outcome, if it is one. -/
def nextOf : Host.Outcome State Fault Refusal → Option State
  | .next t => some t
  | .fault _ => none
  | .refused _ => none

/-- The fault a step takes. -/
def faultAfter (s : State) : Option FaultRecord := (nextOf (step s)).bind State.fault

/-! ### WellFormed refuses an ill-formed term for each of its checks -/

theorem test_illformed_ldi : (Instr.ldi 8#8 9#8).wellFormed = false := by decide
theorem test_illformed_prn : (Instr.prn 0xFF#8).wellFormed = false := by decide
theorem test_illformed_push : (Instr.push 9#8).wellFormed = false := by decide
theorem test_illformed_pop : (Instr.pop 8#8).wellFormed = false := by decide
theorem test_wellformed_edge : (Instr.ldi 7#8 0xFF#8).wellFormed = true ∧ Instr.mul.wellFormed = true := by decide

/-! ### Decoding: each word written out bit by bit from the opcode table of R55 -/

theorem test_decode_ldi : decode [0b10000010#8, 0b00000101#8, 0b11111110#8] = .ok (.ldi 5#8 254#8) := rfl
theorem test_decode_prn : decode [0b01000111#8, 0b00000110#8] = .ok (.prn 6#8) := rfl
theorem test_decode_mul : decode [0b10100010#8] = .ok .mul := rfl
theorem test_decode_push : decode [0b01000101#8, 0b00000010#8] = .ok (.push 2#8) := rfl
theorem test_decode_pop : decode [0b01000110#8, 0b00000011#8] = .ok (.pop 3#8) := rfl
theorem test_decode_hlt : decode [0b00000001#8] = .ok .hlt := rfl
/-- One bit from `HLT` and one bit from `LDI` (V42, V43), 0x00 and 0xA0 (V40, V41): no opcode. -/
theorem test_decode_unknown : decode [0x02#8] = .error (.unknownOpcode 0x02#8) ∧
    decode [0x83#8, 0#8, 0#8] = .error (.unknownOpcode 0x83#8) ∧ decode [0x00#8] = .error (.unknownOpcode 0x00#8) ∧
    decode [0xA0#8, 0#8, 1#8] = .error (.unknownOpcode 0xA0#8) := ⟨rfl, rfl, rfl, rfl⟩
theorem test_decode_short : decode [0x82#8, 9#8] = .error (.missingByte 2) ∧ decode [] = .error (.missingByte 0) :=
  ⟨rfl, rfl⟩
/-- Exactly 6 of the 256 byte values are opcodes, 250 are not (R57). -/
theorem test_250_illegal : ((List.range 256).filter fun n => (lookup (BitVec.ofNat 8 n)).isNone).length = 250 := by decide +kernel
/-- The listing of R61 and P1's image, from the assembler lines of R60. -/
theorem test_assemble_P1 : assemble [.ldi 0 200#8, .ldi 1 3#8, .mulWith 0#8 0#8, .prn 0, .hlt] =
    [0x82#8, 0x00#8, 0xC8#8, 0x82#8, 0x01#8, 0x03#8, 0xA2#8, 0x00#8, 0x00#8, 0x47#8, 0x00#8, 0x01#8] := by decide

/-! ### One step, at most two for each instruction -/

/-- V2: the stack pointer moved. -/
theorem test_ldi_V2 : (nextOf (step (placed 0 [0x82#8, 0x07#8, 0x10#8]))).map (fun t => (t.getReg 7, t.pc, t.fault)) =
    some (0x10#8, 3, none) := by decide
/-- V6: a register byte of 255 is not masked to register 7. -/
theorem test_ldi_V6 : faultAfter (placed 0 [0x82#8, 0xFF#8, 0x09#8]) = some (.outOfBounds .reg 255) := by decide
/-- V14: unsigned, appended. -/
theorem test_prn_V14 : (nextOf (step { placed 4 [0x47#8, 0x02#8] with
      out := [1#8], regs := State.reset.regs.set 2 0xFF#8 })).map (fun t => (t.out, t.pc)) =
    some ([1#8, 255#8], 6) := by decide
/-- V16: nothing is emitted. -/
theorem test_prn_V16 : (nextOf (step (placed 255 [0x47#8]))).map (fun t => (t.fault, t.out, t.pc)) =
    some (some (.outOfBounds .mem 256), [], 255) := by decide
/-- V21: the operand bytes 2 and 3 name nothing. -/
theorem test_mul_V21 : (nextOf (step { placed 0 [0xA2#8, 0x02#8, 0x03#8] with
      regs := #v[5#8, 6#8, 7#8, 8#8, 0#8, 0#8, 0#8, 0xF4#8] })).map (fun t => (t.getReg 0, t.getReg 2, t.getReg 3, t.pc)) =
    some (30#8, 7#8, 8#8, 3) := by decide
/-- V23: `MUL` at 254 completes without its operand bytes. -/
theorem test_mul_V23 : (nextOf (step { placed 254 [0xA2#8] with
      regs := #v[2#8, 4#8, 0#8, 0#8, 0#8, 0#8, 0#8, 0xF4#8] })).map (fun t => (t.getReg 0, t.pc, t.fault)) =
    some (8#8, 257, none) := by decide
/-- V25: `PUSH R7` stores the decremented pointer. -/
theorem test_push_V25 : (nextOf (step (placed 0 [0x45#8, 0x07#8]))).map (fun t => (t.getReg 7, t.mem.read 0xF3, t.pc)) =
    some (0xF3#8, 0xF3#8, 2) := by decide
/-- V26: the pointer wraps below 0, without a fault. -/
theorem test_push_V26 : (nextOf (step { placed 0x10 [0x45#8, 0x01#8] with
      regs := #v[0#8, 0x77#8, 0#8, 0#8, 0#8, 0#8, 0#8, 0#8] })).map (fun t => (t.getReg 7, t.mem.read 0xFF, t.fault)) =
    some (0xFF#8, 0x77#8, none) := by decide
/-- V32: `POP R7` loads, then increments. -/
theorem test_pop_V32 : (nextOf (step { placed 0 [0x46#8, 0x07#8] with
      regs := State.reset.regs.set 7 0xF3#8, mem := (placed 0 [0x46#8, 0x07#8]).mem.write 0xF3 0xFF#8 })).map
      (fun t => (t.getReg 7, t.mem.read 0xF3)) = some (0#8, 0xFF#8) := by decide
/-- V35: a `POP` that reads its own opcode byte. -/
theorem test_pop_V35 : (nextOf (step { placed 0 [0x46#8, 0x05#8] with
      regs := State.reset.regs.set 7 0#8 })).map (fun t => (t.getReg 5, t.getReg 7)) = some (0x46#8, 1#8) := by decide
/-- V39: `HLT` in the last cell is a normal completion. -/
theorem test_hlt_V39 : (nextOf (step (placed 255 [0x01#8]))).map (fun t => (t.run, t.pc, t.fault, t.exitCode)) =
    some (false, 256, none, some 0) := by decide

/-! ### Faults, reset, the interfaces -/

/-- V8: the memory check comes before the register check. -/
theorem test_priority_V8 : faultAfter (placed 254 [0x82#8, 0x09#8]) = some (.outOfBounds .mem 256) := by decide
/-- V44: an illegal opcode at 255 is not an out-of-bounds operand. -/
theorem test_unknown_V44 : faultAfter (placed 255 [0xC3#8]) = some (.unknownInstruction 0xC3#8 255) := by decide
/-- V40: the empty image, with exit code 1. -/
theorem test_unknown_V40 : (nextOf (step State.reset)).map (fun t => (t.fault, t.pc, t.run, t.exitCode)) =
    some (some (.unknownInstruction 0x00#8 0), 0, true, some 1) := by decide
/-- V45. -/
theorem test_fetch_V45 : faultAfter (placed 256 []) = some (.outOfBounds .mem 256) := by decide
/-- V46 and V47: no step on a stopped core. -/
theorem test_stopped_V46_V47 : step { State.reset with run := false } = .fault .halted ∧
    step { State.reset with fault := some (.unknownInstruction 0#8 5) } =
      .fault (.recorded (.unknownInstruction 0#8 5)) := ⟨rfl, rfl⟩
/-- V57. -/
theorem test_reset_V57 : State.reset.regs = #v[0#8, 0#8, 0#8, 0#8, 0#8, 0#8, 0#8, 0xF4#8] ∧ State.reset.pc = 0 := by decide
/-- V58: the load of a 3-byte program. -/
theorem test_load_V58 : (nextOf (load [0x47, 0x07, 0x01] State.reset)).map State.mem =
    some [(0, 0x47#8), (1, 0x07#8), (2, 0x01#8)] := by decide
/-- R70 and R23(d): an invocation that faulted before the run stopped the core, and a load then changes nothing (log entry
21). -/
theorem test_load_stopped : let s := aluInvoke .add 8#8 0#8 State.reset
    s.stopped = true ∧ nextOf (load [0x01] s) = some s := by decide
/-- V51 and V49: the ALU's `ADD` wraps and doubles. -/
theorem test_alu_V51_V49 :
    (aluInvoke .add 7#8 0#8 { State.reset with regs := State.reset.regs.set 0 0x10#8 }).getReg 7 = 0x04#8 ∧
    (aluInvoke .add 4#8 4#8 { State.reset with regs := State.reset.regs.set 4 130#8 }).getReg 4 = 4#8 := by decide
/-- V56: the name is checked before the indices. -/
theorem test_alu_V56 : (aluInvoke (.other "SHL" (by decide)) 9#8 9#8 State.reset).fault =
    some (.unsupportedOperation "SHL") := by decide
/-- The decimal lines of R154: 0, 27, 255. -/
theorem test_printedLines : ({ State.reset with out := [0#8, 27#8, 255#8] } : State).printedLines =
    [[0], [2, 7], [2, 5, 5]] := by decide
/-- V24: the transactions of a `PUSH`. -/
theorem test_transactions_V24 : ({ placed 3 [0x45#8, 0x02#8] with regs := State.reset.regs.set 2 8#8 } : State).stepTransactions =
    [.read 3, .read 4, .write 0xF3 8#8] := by decide
/-- A word of the table placed at reset runs as the first instruction. -/
theorem test_withFetchWord : (nextOf (step (State.reset.withFetchWord 8 0x01))).map State.run = some false := by decide
/-- Writing the value an unlisted address reads as takes the entry out again. -/
theorem test_memory_canonical : ((Memory.write [] 5 9#8).write 2 7#8).write 5 0#8 = [(2, 7#8)] := by decide

/-! ### Witnesses: values that meet the hypotheses of each statement, at the ends of their ranges -/

theorem witness_AssemblerLineDecodes : (AsmLine.mulWith 0xFF#8 0x00#8).instr? = some .mul ∧
    (AsmLine.ldi 7 0xFF#8).instr? = some (.ldi 7#8 0xFF#8) := by decide
theorem witness_MemoryReadAfterWrite : (255 ≤ 255 ∧ 0 ≤ 255) ∧ 255 < 256 := by decide
theorem witness_CanonicalMemoriesEqual : Memory.wf [(0, 1#8), (255, 0xFF#8)] = true ∧ Memory.wf [(0, 0#8)] = false ∧
    Memory.wf [(256, 1#8)] = false ∧ Memory.wf [(3, 1#8), (3, 1#8)] = false := by decide
/-- For the completions of `LDI`, `PRN`, `PUSH` and `POP`: register 0, and register 7 (their other clause). -/
theorem witness_legal_register_bytes : (0#8 : Byte).toNat = (0 : Fin 8).val ∧ (7#8 : Byte).toNat = (7 : Fin 8).val := by decide
theorem witness_MulGivesRemainderOfProduct :
    let s : State := { State.reset with regs := State.reset.regs.set 0 200#8 }
    let s' : State := { State.reset with regs := State.reset.regs.set 1 200#8 }
    s'.getReg 0 = s.getReg 1 ∧ s'.getReg 1 = s.getReg 0 := by decide
theorem witness_IllegalRegisterByteFaults : 7 < (8#8 : Byte).toNat ∧ 7 < (255#8 : Byte).toNat := by decide
theorem witness_NonStoringInstructionsFrame :
    (∀ r, Instr.ldi 7#8 1#8 ≠ .push r) ∧ (∃ t, exec (.ldi 7#8 1#8) State.reset = .next t) ∧
    (∃ t, exec (.ldi 8#8 1#8) State.reset = .next t) ∧ (∃ t, exec (.prn 7#8) State.reset = .next t) ∧
    (∃ t, exec .mul State.reset = .next t) ∧ (∃ t, exec (.pop 7#8) State.reset = .next t) ∧
    (∃ t, exec .hlt State.reset = .next t) :=
  ⟨by simp, ⟨_, rfl⟩, ⟨_, rfl⟩, ⟨_, rfl⟩, ⟨_, rfl⟩, ⟨_, rfl⟩, ⟨_, rfl⟩⟩
theorem witness_PushFrame : (∃ t, exec (.push 7#8) State.reset = .next t ∧ (7#8 : Byte).toNat ≤ 7) ∧
    (∃ t, exec (.push 8#8) State.reset = .next t ∧ 7 < (8#8 : Byte).toNat) ∧ State.reset.decSp.spAddress = 0xF3 :=
  ⟨⟨_, rfl, by decide⟩, ⟨_, rfl, by decide⟩, by decide⟩
theorem witness_RegistersReadAndWritten :
    (∃ t, exec (.push 2#8) State.reset = .next t) ∧
    (∀ k : Fin 8, readsRegister (.push 2#8) k = true → (State.reset.regs.set 3 9#8)[k] = State.reset.getReg k) ∧
    writesRegister (.push 2#8) 7 = true ∧ writesRegister (.push 2#8) 3 = false :=
  ⟨⟨_, rfl⟩, by decide, by decide, by decide⟩
theorem witness_RunningFlagWrittenByHltOnly :
    (∃ t, exec .hlt State.reset = .next t) ∧ (∃ t, step (placed 0 [0x01#8]) = .next t ∧ (placed 0 [0x01#8]).fetch = .ok .hlt) ∧
    (∃ t, step State.reset = .next t) ∧ ({ State.reset with run := false } : State).run = false :=
  ⟨⟨_, rfl⟩, ⟨_, rfl, rfl⟩, ⟨_, rfl⟩, rfl⟩
theorem witness_StackPointerLeftToSoftware :
    (∃ t, exec (.ldi 6#8 1#8) State.reset = .next t ∧ (6#8 : Byte) ≠ 7#8) ∧
    (State.reset.stopped = false ∧ (7#8 : Byte).toNat = (7 : Fin 8).val) ∧
    (7#8 : Byte).toNat ≤ 7 ∧ (6#8 : Byte).toNat ≤ 6 :=
  ⟨⟨_, rfl, by decide⟩, by decide, by decide, by decide⟩
/-- An `LDI` that ends in the last cell, and a `MUL` there whose two ignored bytes do not exist. -/
theorem witness_StepRunsDecodedInstruction :
    (placed 253 [0x82#8, 1#8, 0xAA#8]).run = true ∧ (placed 253 [0x82#8, 1#8, 0xAA#8]).fault = none ∧
    253 + (significantBytes (.ldi 1#8 0xAA#8)).length ≤ 256 ∧
    (placed 253 [0x82#8, 1#8, 0xAA#8]).window = significantBytes (.ldi 1#8 0xAA#8) ∧
    255 + (significantBytes .mul).length ≤ 256 ∧ (placed 255 [0xA2#8]).window = significantBytes .mul := by decide
theorem witness_PlacedWordRunsNext : (placed 253 []).stopped = false ∧ (placed 253 []).pc ≤ 253 ∧
    decodeTableWord 24 0x0907A2 = some .mul := by decide
theorem witness_FetchBeyondMemoryFaults :
    ((placed 256 []).stopped = false ∧ 255 < (placed 256 []).pc) ∧ (placed 255 []).pc ≤ 255 ∧
    ∃ s, step (placed 253 [0xA2#8]) = .next s ∧ s.stopped = false ∧ 255 < s.pc :=
  ⟨by decide, by decide, _, rfl, by decide, by decide⟩
theorem witness_UnknownByteFaultsBeforeDispatch : (placed 255 [0xC3#8]).stopped = false ∧ (placed 255 [0xC3#8]).pc ≤ 255 ∧
    (placed 255 [0xC3#8]).mem.read 255 ∉ [0x82#8, 0x47#8, 0xA2#8, 0x45#8, 0x46#8, 0x01#8] := by decide
/-- A step in each branch of the cascade. -/
theorem witness_FaultChecksInOrder :
    faultAfter (placed 256 []) = some (.outOfBounds .mem 256) ∧
    faultAfter (placed 255 [0x00#8]) = some (.unknownInstruction 0#8 255) ∧
    (∃ t, step (placed 255 [0xA2#8]) = .next t ∧ t.fault = none) ∧
    faultAfter (placed 255 [0x45#8]) = some (.outOfBounds .mem 256) ∧
    faultAfter (placed 254 [0x82#8, 0#8]) = some (.outOfBounds .mem 256) ∧
    faultAfter (placed 253 [0x82#8, 8#8, 0#8]) = some (.outOfBounds .reg 8) ∧
    ∃ t, step (placed 254 [0x46#8, 7#8]) = .next t ∧ t.fault = none :=
  ⟨by decide, by decide, ⟨_, rfl, rfl⟩, by decide, by decide, by decide, _, rfl, rfl⟩
theorem witness_StepExactlyWhenNotStopped : (State.reset.run = true ∧ State.reset.fault = none) ∧
    ({ State.reset with fault := some (.outOfBounds .reg 8) } : State).fault = some (.outOfBounds .reg 8) ∧
    ({ State.reset with run := false } : State).fault = none := by decide
theorem witness_StepIsAllOrNothing : (∃ t, step State.reset = .next t ∧ t.fault ≠ none) ∧
    ∃ t, step (placed 255 [0x01#8]) = .next t ∧ t.fault = none :=
  ⟨⟨_, rfl, by decide⟩, _, rfl, rfl⟩
theorem witness_FaultIsFatal : State.reset.stopped = false ∧
    (∃ t k, step State.reset = .next t ∧ t.fault = some k) ∧
    ∃ t k, aluInvoke .add 8#8 0#8 State.reset = t ∧ t.fault = some k :=
  ⟨by decide, ⟨_, _, rfl, rfl⟩, _, _, rfl, rfl⟩
theorem witness_HltStopsTheCore : (placed 255 [0x01#8]).stopped = false ∧ (placed 255 [0x01#8]).fetch = .ok .hlt ∧
    ∃ t, step (placed 255 [0x01#8]) = .next t := ⟨by decide, rfl, _, rfl⟩
theorem witness_OnlyPushWritesMemory : ∃ t, step (placed 0 [0x45#8, 0x07#8]) = .next t ∧
    t.mem.read 0xF3 ≠ (placed 0 [0x45#8, 0x07#8]).mem.read 0xF3 := ⟨_, rfl, by decide⟩
/-- For the statements about any step that answers a next state: one that prints, one that faults. -/
theorem witness_steps : (∃ t, step (placed 0 [0x47#8, 0x07#8]) = .next t ∧ t.out = [0xF4#8]) ∧
    ∃ t, step State.reset = .next t := ⟨⟨_, rfl, by decide⟩, _, rfl⟩
theorem witness_TransactionsInOrder :
    (placed 253 [0x82#8, 7#8, 1#8]).mem.read 253 = 0x82#8 ∧ (placed 254 [0x47#8, 7#8]).mem.read 254 = 0x47#8 ∧
    ((placed 254 [0x47#8, 7#8]).mem.read 255).toNat = (7 : Fin 8).val ∧ (placed 255 [0xA2#8]).mem.read 255 = 0xA2#8 ∧
    (placed 254 [0x45#8, 7#8]).mem.read 254 = 0x45#8 ∧ ((placed 254 [0x45#8, 7#8]).mem.read 255).toNat = (7 : Fin 8).val ∧
    (placed 254 [0x46#8, 0#8]).mem.read 254 = 0x46#8 ∧ ((placed 254 [0x46#8, 0#8]).mem.read 255).toNat = (0 : Fin 8).val ∧
    (placed 255 [0x01#8]).mem.read 255 = 0x01#8 ∧ (placed 255 [0x01#8]).stopped = false := by decide
/-- Memories that differ in `MUL`'s ignored bytes and everywhere else but in its opcode byte. -/
theorem witness_StepDependsOnlyOnCellsItReads : (∃ t, step (placed 0 [0xA2#8, 1#8, 2#8]) = .next t) ∧
    ∀ a ∈ [0], Memory.read [(0, 0xA2#8), (1, 7#8), (9, 9#8)] a = (placed 0 [0xA2#8, 1#8, 2#8]).mem.read a :=
  ⟨⟨_, rfl⟩, by decide⟩
theorem witness_AluAddCompletes : State.reset.stopped = false ∧ (7#8 : Byte).toNat = (7 : Fin 8).val ∧
    (0#8 : Byte).toNat = (0 : Fin 8).val := by decide
theorem witness_AluFaultsInOrder : ({ State.reset with run := false } : State).stopped = true ∧ State.reset.stopped = false ∧
    "MUL" ≠ "ADD" ∧ 7 < (8#8 : Byte).toNat ∧ (7#8 : Byte).toNat ≤ 7 := by decide
theorem witness_ExitCodeTable : State.reset.exitCode = none ∧ ({ State.reset with run := false } : State).exitCode = some 0 ∧
    (State.reset.raise (.unknownInstruction 0#8 0)).exitCode = some 1 ∧
    (State.reset.raise (.outOfBounds .mem 256)).exitCode = some 2 ∧
    (State.reset.raise (.unsupportedOperation "SUB")).exitCode = some 3 := by decide
theorem witness_LoadPlacesProgram : (List.replicate 256 300).length ≤ 256 ∧ (List.replicate 256 300)[255]? = some 300 ∧
    256 < (List.replicate 257 0).length ∧ State.reset.stopped = false ∧
    ({ State.reset with fault := some (.outOfBounds .reg 8) } : State).stopped = true := by
  simp only [List.length_replicate, List.getElem?_replicate]; decide
theorem witness_LdiThenPrnEmitsTheValue :
    let s := placed 251 [0x82#8, 7#8, 0xFF#8, 0x47#8, 7#8]
    s.stopped = false ∧ s.pc + 4 ≤ 255 ∧ s.mem.read s.pc = 0x82#8 ∧ (s.mem.read (s.pc + 1)).toNat = (7 : Fin 8).val ∧
    s.mem.read (s.pc + 2) = 0xFF#8 ∧ s.mem.read (s.pc + 3) = 0x47#8 ∧
    (s.mem.read (s.pc + 4)).toNat = (7 : Fin 8).val := by decide
/-- The four clauses of push and pop, and registers for last in, first out. -/
theorem witness_PushThenPopRestores_StackIsLastInFirstOut :
    ((0 : Fin 8) ≠ 7 ∧ (6 : Fin 8) ≠ 7) ∧ (7 : Fin 8) = 7 ∧ (2 : Fin 8) ≠ 3 := by decide
theorem witness_RepeatedPushesDescend : (∀ r ∈ List.replicate 256 (6 : Fin 8), r ≠ 7) ∧
    (List.replicate 256 (6 : Fin 8)).length ≤ 256 ∧ (List.replicate 256 (6 : Fin 8))[255]? = some 6 := by
  refine ⟨fun r hr => ?_, by simp only [List.length_replicate]; decide, by simp only [List.getElem?_replicate]; decide⟩
  rw [List.eq_of_mem_replicate hr]; decide
/-- P4, with `HLT`'s opcode as the pushed byte, and with a byte that is no opcode. -/
theorem witness_PushedByteIsFetchedNext : ∀ v ∈ [0x01#8, 0xFF#8],
    let s : State := { placed 6 [0x45#8, 0#8, 0x47#8, 0#8] with regs := #v[v, 0#8, 0#8, 0#8, 0#8, 0#8, 0#8, 9#8] }
    s.stopped = false ∧ s.pc + 2 ≤ 255 ∧ s.mem.read s.pc = 0x45#8 ∧ (s.mem.read (s.pc + 1)).toNat = (0 : Fin 8).val ∧
    (s.getReg 7 - 1#8).toNat = s.pc + 2 ∧ v = s.getReg 0 := by decide
theorem witness_EveryRunStopsWithin129Steps : 129 ≤ 257 ∧ (runLoop 1 State.reset).stopped = true := by decide
theorem witness_StepKeepsInvariant : (placed 0 [0x01#8]).Inv ∧ ∃ t, step (placed 0 [0x01#8]) = .next t :=
  ⟨⟨by decide, by decide, fun _ => rfl, fun _ h => by cases h⟩, _, rfl⟩
/-- A stopped core to which a load comes, and a core whose output grows. -/
theorem witness_StoppedCoreStandsAndOutputGrows :
    (∃ s t, Later s t ∧ s.stopped = true ∧ load [1] s = .next t) ∧
    ∃ t, Later (placed 0 [0x47#8, 7#8]) t ∧ t.out = [0xF4#8] :=
  ⟨⟨_, _, .load (prog := [1]) (.refl (s := State.reset.raise (.outOfBounds .reg 8))) rfl, rfl, rfl⟩,
    _, .step .refl rfl, rfl⟩
theorem witness_ReachableStatesHaveInvariant : ∃ t, step State.reset = .next t ∧ Reachable t :=
  ⟨_, rfl, .step (.start .reset) rfl⟩

end Sys2Proof.Tests
end

