-- ==== Sys2Proof/Proofs/RunningFlag.lean ====
section
/-! The Running Flag (spec 10_state.md R17): what an instruction and a step make of it, and that no instruction reads it. -/

namespace Sys2Proof.Machine

/-- `HLT` clears `RUN`; every other instruction, and a fault on its register byte, leaves it. -/
theorem exec_run {i : Instr} {s t : State} (h : exec i s = .next t) :
    t.run = if i = .hlt then false else s.run := by
  rcases exec_cases h with ⟨reg, -, hi, rfl⟩ | ⟨_, _, _, -, rfl, rfl⟩ | ⟨_, _, -, rfl, rfl⟩ | ⟨rfl, rfl⟩ |
    ⟨_, _, -, rfl, rfl⟩ | ⟨_, _, -, rfl, rfl⟩ | ⟨rfl, rfl⟩
  case inl => rcases hi with ⟨_, rfl⟩ | rfl | rfl | rfl <;> simp
  all_goals simp

/-- No handler reads `RUN`: on a state with another value of it, the instruction takes the same form. -/
theorem exec_withRun {i : Instr} {s t : State} (h : exec i s = .next t) (b : Bool) :
    ∃ t', exec i { s with run := b } = .next t' ∧ { t' with run := t.run } = t := by
  rcases exec_cases h with ⟨reg, hreg, hi, rfl⟩ | ⟨_, imm, _, hr, rfl, rfl⟩ | ⟨_, _, hr, rfl, rfl⟩ | ⟨rfl, rfl⟩ |
    ⟨_, _, hr, rfl, rfl⟩ | ⟨_, _, hr, rfl, rfl⟩ | ⟨rfl, rfl⟩
  · refine ⟨({ s with run := b } : State).raise (.outOfBounds .reg reg.toNat), ?_, rfl⟩
    rcases hi with ⟨imm, rfl⟩ | rfl | rfl | rfl
    · exact execLdi_error hreg imm _
    · exact execPrn_error hreg _
    · exact execPush_error hreg _
    · exact execPop_error hreg _
  · exact ⟨_, execLdi_ok hr imm _, rfl⟩
  · exact ⟨_, execPrn_ok hr _, rfl⟩
  · exact ⟨_, execMul_ok _, rfl⟩
  · exact ⟨_, execPush_ok hr _, rfl⟩
  · exact ⟨_, execPop_ok hr _, rfl⟩
  · exact ⟨_, execHlt_ok _, rfl⟩

/-- The loop tests `RUN` (R70, R74). -/
theorem run_of_step {s t : State} (h : step s = .next t) : s.run = true :=
  (stopped_eq_false.mp (running_of_step h)).1

/-- A core that steps has `RUN` set (R70), so the step ends with it clear exactly when the instruction it fetched is
`HLT`; a fault of the fetch leaves it set. -/
theorem step_run_eq_false_iff {s t : State} (h : step s = .next t) : t.run = false ↔ s.fetch = .ok .hlt := by
  have hrun := run_of_step h
  obtain ⟨-, ⟨i, hf, hi⟩ | ⟨k, hf, rfl⟩⟩ := step_cases h
  · simp [exec_run hi, hf, hrun]
  · simp [hf, hrun]

/-- Settles O22: the clauses are the lemmas above, from everything `exec` and `step` can answer. -/
theorem runningFlagWrittenByHltOnly : Obligations.RunningFlagWrittenByHltOnly := by
  refine ⟨rfl, fun _ _ _ h => exec_run h, fun _ _ h => step_run_eq_false_iff h, fun _ _ _ b h => exec_withRun h b,
    fun s t hrun h => ?_⟩
  rw [run_of_step h] at hrun
  cases hrun

end Sys2Proof.Machine
end

