-- ==== Sys2Proof/Proofs/Fetch.lean ====
section
/-! The opcode fetch (spec 40_fetch_execute.md R71, R72): the first transaction of a step, what leads to a fetch beyond
memory, and the byte that is no opcode. -/

namespace Sys2Proof.Machine

/-- An instruction is fetched from inside the address space only. -/
theorem pc_le_of_fetch_ok {s : State} {i : Instr} (h : s.fetch = .ok i) : s.pc ≤ 255 := by
  by_contra hpc
  rw [fetch_beyond (by omega)] at h
  cases h

/-- A recorded fault stops the core (D11). -/
@[simp] theorem raise_stopped (s : State) (k : FaultRecord) : (s.raise k).stopped = true := by
  simp [State.stopped]

/-- A core that is not stopped after an instruction has completed it, and its handler has moved `pc` by the width (R75):
the fault on a register byte stops the core. -/
theorem exec_pc_of_running {i : Instr} {s t : State} (h : exec i s = .next t) (ht : t.stopped = false) :
    t.pc = s.pc + i.width := by
  rcases exec_cases h with ⟨_, -, -, rfl⟩ | ⟨_, _, _, -, rfl, rfl⟩ | ⟨_, _, -, rfl, rfl⟩ | ⟨rfl, rfl⟩ |
    ⟨_, _, -, rfl, rfl⟩ | ⟨_, _, -, rfl, rfl⟩ | ⟨rfl, rfl⟩
  case inl => simp at ht
  all_goals rfl

/-- A core that is not stopped after a step has completed an instruction other than `HLT`, and `pc` has moved from inside
the address space by that instruction's width. -/
theorem completed_of_running {s t : State} (h : step s = .next t) (ht : t.stopped = false) :
    ∃ i, s.fetch = .ok i ∧ i ≠ .hlt ∧ s.pc ≤ 255 ∧ t.pc = s.pc + i.width := by
  obtain ⟨-, ⟨i, hf, hi⟩ | ⟨k, -, rfl⟩⟩ := step_cases h
  · refine ⟨i, hf, ?_, pc_le_of_fetch_ok hf, exec_pc_of_running hi ht⟩
    rintro rfl
    have hrun : t.run = true := (stopped_eq_false.mp ht).1
    rw [(step_run_eq_false_iff h).mpr hf] at hrun
    cases hrun
  · simp at ht

/-- With `pc` in the address space a running core reads the opcode before anything else (R71). -/
theorem transactions_begin_with_opcode {s : State} (hs : s.stopped = false) (hp : s.pc ≤ 255) :
    ∃ rest, s.stepTransactions = .read s.pc :: rest := by
  simp [State.stepTransactions, hs, issueRead_ok s hp]

/-- Settles O26: the fetch beyond memory is a form of the step, and a `pc` beyond memory comes from the width of the
instruction completed before. -/
theorem fetchBeyondMemoryFaults : Obligations.FetchBeyondMemoryFaults := by
  refine ⟨fun s hs hp => (step_of_form hs (.fetchBeyond hp)).1, fun s hs hp => transactions_begin_with_opcode hs hp,
    fun p s h hs hp => ?_⟩
  obtain ⟨i, hf, hi, hle, hpc⟩ := completed_of_running h hs
  exact ⟨i, hf, hi, hle, by omega⟩

/-- Settles O27: the byte has no row, so the step has the form of the unknown instruction, and the fault it records stops
the core. -/
theorem unknownByteFaultsBeforeDispatch : Obligations.UnknownByteFaultsBeforeDispatch := by
  intro s hs hp hop
  have hl : lookup (s.mem.read s.pc) = none := lookup_eq_none.mpr (by simpa using hop)
  obtain ⟨hstep, htrans⟩ := step_of_form hs (.unknown hp hl)
  refine ⟨_, hstep, rfl, htrans, raise_stopped _ _, fun u hu => ?_⟩
  have hrun := running_of_step hu
  rw [raise_stopped] at hrun
  cases hrun

end Sys2Proof.Machine
end

