-- ==== Sys2Proof/Proofs/Mul.lean ====
section
/-! The product of `MUL` (spec 42_mul_alu.md R86): its exact value, and that its factors commute. -/

namespace Sys2Proof.Machine

/-- The narrowed product is the remainder of the exact one on division by 256 (R86, R91). -/
theorem toNat_mulBytes (a b : Byte) : (mulBytes a b).toNat = (a.toNat * b.toNat) % 256 := toNat_narrow _

theorem mulBytes_comm (a b : Byte) : mulBytes a b = mulBytes b a :=
  congrArg Byte.narrow (Nat.mul_comm a.toNat b.toNat)

/-- Register 0 after a completed `MUL` holds the product of the two factors. -/
theorem getReg_zero_of_mul {s t : State} (h : exec .mul s = .next t) :
    t.getReg 0 = mulBytes (s.getReg 0) (s.getReg 1) := by
  rw [execMul_ok] at h
  cases h
  simp

/-- `MUL` writes register 0 only. -/
theorem getReg_of_mul_of_ne {s t : State} (h : exec .mul s = .next t) {k : Fin 8} (hk : k ≠ 0) :
    t.getReg k = s.getReg k := by
  rw [execMul_ok] at h
  cases h
  simp [getReg_setReg_of_ne hk]

/-- Settles O14: both states complete, and on swapped factors the product is the same by `mulBytes_comm`. -/
theorem mulGivesRemainderOfProduct : Obligations.MulGivesRemainderOfProduct := by
  intro s s' h0 h1
  obtain ⟨t, ht⟩ := exec_total .mul s
  obtain ⟨t', ht'⟩ := exec_total .mul s'
  have hne : (1 : Fin 8) ≠ 0 := by decide
  refine ⟨t, t', ht, ht', ?_, getReg_of_mul_of_ne ht hne, ?_, ?_⟩
  · rw [getReg_zero_of_mul ht, toNat_mulBytes]
  · calc t'.getReg 0 = mulBytes (s.getReg 1) (s.getReg 0) := by rw [getReg_zero_of_mul ht', h0, h1]
      _ = mulBytes (s.getReg 0) (s.getReg 1) := mulBytes_comm _ _
      _ = t.getReg 0 := (getReg_zero_of_mul ht).symm
  · rw [getReg_of_mul_of_ne ht' hne, h1]

end Sys2Proof.Machine
end

