-- ==== Sys2Proof/Proofs/Hlt.lean ====
section
/-! The end by `HLT` (spec 44_hlt.md R100, R101): what a stopped core can still do, and the status `HLT` leaves. -/

namespace Sys2Proof.Machine

/-- A stopped core takes no step (R70). -/
theorem step_ne_next_of_stopped {s : State} (h : s.stopped = true) (u : State) : step s ≠ .next u := by
  obtain ⟨r, -, hr⟩ := step_stopped h
  simp [hr]

/-- A stopped core fetches nothing and makes no other transaction (R70, R101). -/
theorem stepTransactions_of_stopped {s : State} (h : s.stopped = true) : s.stepTransactions = [] := by
  simp [State.stepTransactions, h]

/-- `RUN` clear stops the core, whatever `FAULT` is (R70). -/
theorem stopped_of_run_eq_false {s : State} (h : s.run = false) : s.stopped = true := by
  simp [State.stopped, h]

/-- `RUN` clear and no fault recorded: the end is a normal completion (R78). -/
theorem normalCompletion_of_halted {s : State} (hrun : s.run = false) (hfault : s.fault = none) :
    s.normalCompletion = true := by
  simp [State.normalCompletion, hrun, hfault]

/-- The exit code of a normal completion (R112, R155). -/
theorem exitCode_of_halted {s : State} (hrun : s.run = false) (hfault : s.fault = none) : s.exitCode = some 0 := by
  simp [State.exitCode, hrun, hfault]

/-- A step that fetches `HLT` has the effect of `HLT` and no other (R100). -/
theorem eq_of_step_hlt {s t : State} (hf : s.fetch = .ok .hlt) (h : step s = .next t) :
    t = s.clearRun.advance 1 := by
  rw [step_of_fetch_ok (running_of_step h) hf, execHlt_ok] at h
  cases h
  rfl

/-- Settles O32: `HLT` clears `RUN` and records no fault; the first of these stops the core, and both together are the
normal completion. -/
theorem hltStopsTheCore : Obligations.HltStopsTheCore := by
  intro s t hs hf h
  have ht := eq_of_step_hlt hf h
  have hrun : t.run = false := by simp [ht]
  have hfault : t.fault = none := by simp [ht, (stopped_eq_false.mp hs).2]
  have hstop : t.stopped = true := stopped_of_run_eq_false hrun
  refine ⟨hrun, hstop, step_ne_next_of_stopped hstop, stepTransactions_of_stopped hstop,
    normalCompletion_of_halted hrun hfault, exitCode_of_halted hrun hfault, runLoop_stopped hstop, fun op a b => ?_⟩
  rw [aluInvoke_stopped hstop, hrun]

end Sys2Proof.Machine
end

