-- ==== Sys2Proof/Proofs/Encoding.lean ====
section
/-! The opcode table, the decoder and the encoder (spec 30_encoding.md): what a lookup finds, which bytes decode to an
instruction, and the walk over a listing. -/

namespace Sys2Proof

/-! ### The decoder and the table -/

/-- The operands of a row are read from the bytes after the opcode byte, so these begin with the significant bytes of the
instruction decoded (R51, R53). -/
theorem significantBytes_of_decodeOperands {m : Mnemonic} {tail : List Byte} {i : Instr}
    (h : decodeOperands m (m.code :: tail) = .ok i) : ∃ rest, m.code :: tail = significantBytes i ++ rest := by
  cases m with
  | MUL | HLT => cases h; exact ⟨tail, rfl⟩
  | PRN | PUSH | POP =>
    rcases tail with _ | ⟨reg, rest⟩
    · cases h
    · cases h; exact ⟨rest, rfl⟩
  | LDI =>
    rcases tail with _ | ⟨reg, _ | ⟨imm, rest⟩⟩
    · cases h
    · cases h
    · cases h; exact ⟨rest, rfl⟩

/-- Bytes that decode begin with the significant bytes of the instruction they decode to. -/
theorem significantBytes_of_decode {bs : List Byte} {i : Instr} (h : decode bs = .ok i) :
    ∃ rest, bs = significantBytes i ++ rest := by
  cases bs with
  | nil => cases h
  | cons op tail =>
    cases hl : lookup op with
    | none => simp [decode, hl] at h
    | some row =>
      simp only [decode, hl] at h
      obtain ⟨rfl, -⟩ := lookup_some hl
      exact significantBytes_of_decodeOperands h

/-- The six codes differ, so a row is found by its own code. -/
theorem lookup_code_of_mem {row : OpRow} (h : row ∈ dispatchTable) : lookup row.code = some row := by
  simp only [dispatchTable, List.mem_cons, List.not_mem_nil, or_false] at h
  rcases h with rfl | rfl | rfl | rfl | rfl | rfl <;> rfl

/-- Settles O1: the rows are read off the table, and `lookup` is its first row with the byte as code. -/
theorem opcodeLookupMatchesWholeByte : Obligations.OpcodeLookupMatchesWholeByte := by
  refine ⟨rfl, fun op row => ⟨fun h => ⟨List.mem_of_find?_eq_some h, ?_⟩, ?_⟩⟩
  · simpa using List.find?_some h
  · rintro ⟨hmem, rfl⟩
    exact lookup_code_of_mem hmem

/-- Settles O2: each word is evaluated. -/
theorem specWordsDecode : Obligations.SpecWordsDecode := ⟨rfl, rfl, rfl, rfl, rfl, rfl, rfl, rfl⟩

/-- Settles O4, by inversion of the decoder and `decode_significantBytes`. -/
theorem decodesExactlyItsBytes : Obligations.DecodesExactlyItsBytes := by
  refine fun bs i => ⟨significantBytes_of_decode, ?_⟩
  rintro ⟨rest, rfl⟩
  exact decode_significantBytes i rest

/-! ### The encoder -/

/-- An encoding is the significant bytes, for `MUL` with two ignored ones after them (R85). -/
theorem encode_eq_significantBytes_append (i : Instr) : ∃ ignored, encode i = significantBytes i ++ ignored := by
  cases i with
  | mul => exact ⟨[0x00#8, 0x01#8], rfl⟩
  | _ => exact ⟨[], rfl⟩

theorem decode_encode_append (i : Instr) (rest : List Byte) : decode (encode i ++ rest) = .ok i := by
  obtain ⟨ignored, h⟩ := encode_eq_significantBytes_append i
  rw [h, List.append_assoc, decode_significantBytes]

/-- Settles O3: what follows the significant bytes plays no part. -/
theorem decodeOfEncode : Obligations.DecodeOfEncode := decode_encode_append

theorem length_encode (i : Instr) : (encode i).length = i.width := by cases i <;> rfl

/-! ### The walk over a listing (R54) -/

/-- One step of the walk over bytes that are not all read yet. -/
theorem decodeAll_succ {bs : List Byte} {i : Instr} {is : List Instr} {fuel : Nat} (hi : decode bs = .ok i)
    (his : decodeAll fuel (bs.drop i.width) = .ok is) : decodeAll (fuel + 1) bs = .ok (i :: is) := by
  cases bs with
  | nil => cases hi
  | cons b bs => simp only [decodeAll, hi, his]

/-- Settles O5, by induction on the listing: each encoding decodes to its instruction, whose width leads to the next. -/
theorem listingDecodesToItsInstructions : Obligations.ListingDecodesToItsInstructions := by
  intro is
  induction is with
  | nil => rfl
  | cons i is ih =>
    refine decodeAll_succ (decode_encode_append i _) ?_
    rw [List.flatMap_cons, ← length_encode i, List.drop_left]
    exact ih

/-! ### The assembler's lines (R60) -/

@[simp] theorem regByte_toNat (n : Fin 8) : (regByte n).toNat = n.val := by
  simp only [regByte, BitVec.toNat_ofNat]
  omega

/-- A byte that names a register is legal (R58). -/
theorem legalReg_regByte (n : Fin 8) : legalReg (regByte n) = true := by
  simp only [legalReg, regByte_toNat, decide_eq_true_eq]
  omega

/-- A line's bytes are the significant bytes of its instruction, for `MUL` with two ignored ones after them. -/
theorem bytes_eq_significantBytes_append {l : AsmLine} {i : Instr} (h : l.instr? = some i) :
    ∃ ignored, l.bytes = significantBytes i ++ ignored := by
  cases l with
  | byte v => cases h
  | mul => cases h; exact ⟨[0x00#8, 0x01#8], rfl⟩
  | mulWith b1 b2 => cases h; exact ⟨[b1, b2], rfl⟩
  | _ => cases h; exact ⟨[], rfl⟩

theorem length_bytes {l : AsmLine} {i : Instr} (h : l.instr? = some i) : l.bytes.length = i.width := by
  cases l <;> cases h <;> rfl

/-- A line can name registers 0 to 7 only, so its instruction is well formed (R58). -/
theorem wellFormed_of_instr? {l : AsmLine} {i : Instr} (h : l.instr? = some i) : i.wellFormed = true := by
  cases l with
  | ldi n | prn n | push n | pop n => cases h; exact legalReg_regByte n
  | byte v => cases h
  | _ => cases h; rfl

/-- Settles O6: the lemmas above, and `decode_significantBytes` for the line's bytes. -/
theorem assemblerLineDecodes : Obligations.AssemblerLineDecodes := by
  intro l i rest h
  obtain ⟨ignored, hb⟩ := bytes_eq_significantBytes_append h
  refine ⟨length_bytes h, wellFormed_of_instr? h, ?_⟩
  rw [hb, List.append_assoc, decode_significantBytes]

end Sys2Proof
end

