-- ==== Sys2Proof/Proofs/Memory.lean ====
section
/-! Memory (spec 20_memory.md): its canonical form, a read after a write, the bytes a load leaves, and the values at reset
and in the register file (10_state.md). -/

namespace Sys2Proof.Machine

/-! ### The canonical form -/

theorem read_cons_self (k : Nat) (v : Byte) (rest : Memory) : Memory.read ((k, v) :: rest) k = v := by
  simp [Memory.read]

theorem read_cons_of_ne {k a : Nat} (h : a ≠ k) (v : Byte) (rest : Memory) :
    Memory.read ((k, v) :: rest) a = rest.read a := by
  simp [Memory.read, h.symm]

/-- A canonical memory whose first entry is at `k` does not read like one that begins above `k`. -/
theorem first_read_ne_of_wfFrom {k : Nat} {v : Byte} {rest m : Memory} (hv : v ≠ Config.memReset) {lo : Nat}
    (hm : m.wfFrom lo = true) (hk : k < lo) : Memory.read ((k, v) :: rest) k ≠ m.read k := by
  rw [read_cons_self, read_below hm hk]
  exact hv

/-- Equal reads make canonical memories equal, entry by entry: the first entries stand at one address, since the lower of
two would be read in one memory only. -/
theorem eq_of_read_eq : ∀ {m m' : Memory} {lo lo' : Nat}, m.wfFrom lo = true → m'.wfFrom lo' = true →
    (∀ a, m.read a = m'.read a) → m = m'
  | [], [], _, _, _, _, _ => rfl
  | [], (k, v) :: rest, _, _, _, hm', heq => by
    obtain ⟨-, -, hv, -⟩ := wfFrom_cons.mp hm'
    exact absurd (heq k).symm (first_read_ne_of_wfFrom (m := []) (lo := k + 1) hv rfl (by omega))
  | (k, v) :: rest, [], _, _, hm, _, heq => by
    obtain ⟨-, -, hv, -⟩ := wfFrom_cons.mp hm
    exact absurd (heq k) (first_read_ne_of_wfFrom (m := []) (lo := k + 1) hv rfl (by omega))
  | (k, v) :: rest, (k', v') :: rest', lo, lo', hm, hm', heq => by
    obtain ⟨-, hk, hv, hrest⟩ := wfFrom_cons.mp hm
    obtain ⟨-, hk', hv', hrest'⟩ := wfFrom_cons.mp hm'
    rcases Nat.lt_trichotomy k k' with hlt | rfl | hgt
    · exact absurd (heq k)
        (first_read_ne_of_wfFrom hv (wfFrom_cons.mpr ⟨le_refl k', hk', hv', hrest'⟩) hlt)
    · have hvv : v = v' := by simpa only [read_cons_self] using heq k
      have hreads : ∀ a, Memory.read rest a = Memory.read rest' a := by
        intro a
        by_cases ha : a = k
        · rw [read_below hrest (by omega), read_below hrest' (by omega)]
        · simpa only [read_cons_of_ne ha] using heq a
      rw [hvv, eq_of_read_eq hrest hrest' hreads]
    · exact absurd (heq k').symm
        (first_read_ne_of_wfFrom hv' (wfFrom_cons.mpr ⟨le_refl k, hk, hv, hrest⟩) hgt)

/-- Settles O10: `wf` is `wfFrom 0`. -/
theorem canonicalMemoriesEqual : Obligations.CanonicalMemoriesEqual :=
  fun _ _ hm hm' heq => eq_of_read_eq hm hm' heq

/-- Settles O9, by the rules of `memWrite` and `memRead` and `read_write`. -/
theorem memoryReadAfterWrite : Obligations.MemoryReadAfterWrite := by
  refine fun s a v b => ⟨fun ha => ⟨_, memWrite_ok s ha v, rfl, fun hb => ⟨_, memRead_ok _ hb, ?_⟩⟩,
    fun ha => memWrite_error s ha v, fun hb => memRead_error s hb⟩
  rw [setMem_mem, read_write]
  by_cases h : b = a
  · rw [if_pos h, if_pos h, toNat_narrow]
  · rw [if_neg h, if_neg h]

/-! ### Bytes stored one after the other -/

/-- What is stored from `a` on does not reach below `a`, nor from its end on. -/
theorem read_storeBytes_of_outside {bs : List Byte} {b : Nat} : ∀ {m : Memory} {a : Nat},
    b < a ∨ a + bs.length ≤ b → (m.storeBytes a bs).read b = m.read b := by
  induction bs with
  | nil => intro m a _; rfl
  | cons v bs ih =>
    intro m a h
    simp only [List.length_cons] at h
    rw [Memory.storeBytes, ih (by omega)]
    split
    · rw [read_write, if_neg (by omega)]
    · rfl

/-- Inside the address space the byte stored at `a + k` is byte `k`. -/
theorem read_storeBytes_of_getElem? {bs : List Byte} : ∀ {m : Memory} {a k : Nat} {v : Byte}, bs[k]? = some v →
    a + k < Config.memSize → (m.storeBytes a bs).read (a + k) = v := by
  induction bs with
  | nil => intro m a k v h; cases h
  | cons b bs ih =>
    intro m a k v h ha
    cases k with
    | zero =>
      cases h
      rw [Memory.storeBytes, read_storeBytes_of_outside (.inl (by omega)), if_pos (by omega), read_write,
        if_pos (Nat.add_zero a)]
    | succ k =>
      rw [Memory.storeBytes, show a + (k + 1) = a + 1 + k by omega]
      exact ih h (by omega)

/-- The Loader's writes, where they fit, store the values truncated to bytes (R131). -/
theorem writeFrom_eq_storeBytes {prog : List Nat} : ∀ {s : State} {a : Nat}, a + prog.length ≤ 256 →
    s.writeFrom a prog = .ok (s.setMem (s.mem.storeBytes a (prog.map Byte.narrow))) := by
  induction prog with
  | nil => intro s a _; rfl
  | cons v vs ih =>
    intro s a h
    rw [List.length_cons] at h
    have ha : a < Config.memSize := by simp only [Config.memSize]; omega
    rw [State.writeFrom, memWrite_ok s (by omega), List.map_cons, Memory.storeBytes, if_pos ha]
    exact ih (by omega)

/-- The Loader's writes beyond the address space are a fault (R32). -/
theorem writeFrom_beyond {prog : List Nat} : ∀ {s : State} {a : Nat}, a ≤ 256 → 256 < a + prog.length →
    ∃ k, s.writeFrom a prog = .error k := by
  induction prog with
  | nil => intro s a ha h; rw [List.length_nil] at h; omega
  | cons v vs ih =>
    intro s a ha h
    rw [List.length_cons] at h
    by_cases hlt : a ≤ 255
    · rw [State.writeFrom, memWrite_ok s hlt]
      exact ih (by omega) (by omega)
    · exact ⟨_, by rw [State.writeFrom, memWrite_error s (by omega)]⟩

/-- A load that fits, on a core that is not stopped. -/
theorem load_ok {prog : List Nat} {s : State} (hs : s.stopped = false) (h : prog.length ≤ 256) :
    load prog s = .next (s.setMem (s.mem.storeBytes 0 (prog.map Byte.narrow))) := by
  rw [load, writeFrom_eq_storeBytes (a := Config.loadBase) (by simp only [Config.loadBase]; omega)]
  simp [hs, Config.loadBase]

/-- A load that fits, on a stopped core (log entry 21). -/
theorem load_stopped {prog : List Nat} {s : State} (hs : s.stopped = true) (h : prog.length ≤ 256) :
    load prog s = .next s := by
  rw [load, writeFrom_eq_storeBytes (a := Config.loadBase) (by simp only [Config.loadBase]; omega)]
  simp [hs]

/-- A load that does not fit (D16). -/
theorem load_tooLong {prog : List Nat} {s : State} (h : 256 < prog.length) :
    load prog s = .refused (.programTooLong prog.length) := by
  obtain ⟨k, hk⟩ := writeFrom_beyond (s := s) (prog := prog) (a := Config.loadBase)
    (by simp only [Config.loadBase]; omega) (by simp only [Config.loadBase]; omega)
  rw [load, hk]

/-- Settles O43: the load is `storeBytes` from address 0, whose reads are known inside and outside the program. -/
theorem loadPlacesProgram : Obligations.LoadPlacesProgram := by
  refine fun prog s => ⟨fun hs h => ⟨_, load_ok hs h, rfl, fun i v hv => ?_, fun a ha => ?_⟩,
    fun hs h => load_stopped hs h, load_tooLong⟩
  · have hi : i < prog.length := (List.getElem?_eq_some_iff.mp hv).1
    have hread : (s.mem.storeBytes 0 (prog.map Byte.narrow)).read (0 + i) = Byte.narrow v :=
      read_storeBytes_of_getElem? (by simp [hv]) (by simp only [Config.memSize]; omega)
    rw [Nat.zero_add] at hread
    rw [setMem_mem, hread, toNat_narrow]
  · exact read_storeBytes_of_outside (.inr (by simpa using ha))

/-! ### Reset and the register file -/

/-- Settles O7: the fields of `State.reset`, register by register. -/
theorem resetValues : Obligations.ResetValues :=
  ⟨by decide, rfl, rfl, rfl, rfl, read_nil, rfl⟩

/-- Settles O8, by the rule of a register read after a write. -/
theorem registerFileReadAfterWrite : Obligations.RegisterFileReadAfterWrite :=
  fun s i k v => ⟨getReg_setReg s i k v, rfl⟩

end Sys2Proof.Machine
end

