-- ==== Sys2Proof/Proofs/Instructions.lean ====
section
/-! Each instruction on its own (spec 41_ldi_prn.md to 44_hlt.md): its completion, its fault on an illegal register byte,
and what it leaves unchanged. -/

namespace Sys2Proof.Machine

/-! ### The stack pointer moved by one -/

@[simp] theorem getReg_decSp_seven (s : State) : s.decSp.getReg 7 = s.getReg 7 - 1#8 := by
  rw [getReg_decSp, if_pos rfl]

theorem getReg_decSp_of_ne {k : Fin 8} (h : k ≠ 7) (s : State) : s.decSp.getReg k = s.getReg k := by
  rw [getReg_decSp, if_neg h]

@[simp] theorem getReg_incSp_seven (s : State) : s.incSp.getReg 7 = s.getReg 7 + 1#8 := by
  rw [getReg_incSp, if_pos rfl]

theorem getReg_incSp_of_ne {k : Fin 8} (h : k ≠ 7) (s : State) : s.incSp.getReg k = s.getReg k := by
  rw [getReg_incSp, if_neg h]

/-- The address `PUSH` stores to (R93). -/
theorem decSp_spAddress (s : State) : s.decSp.spAddress = (s.getReg 7 - 1#8).toNat := by
  rw [spAddress_eq, getReg_decSp_seven]

/-! ### Completion -/

/-- Settles O11, from the state `LDI` completes in. -/
theorem ldiCompletes : Obligations.LdiCompletes :=
  fun s _ imm r h => ⟨_, execLdi_ok h imm s, getReg_setReg_self s r imm, fun _ hk => getReg_setReg_of_ne hk s imm,
    rfl, rfl, rfl, rfl, fun _ => rfl⟩

/-- Settles O12, from the state `PRN` completes in. -/
theorem prnCompletes : Obligations.PrnCompletes :=
  fun s _ _ h => ⟨_, execPrn_ok h s, rfl, fun _ => rfl, rfl, rfl, rfl, fun _ => rfl⟩

/-- Settles O13: the product is `mulBytes`, and only register 0 is written. -/
theorem mulCompletes : Obligations.MulCompletes := by
  refine fun s => ⟨_, execMul_ok s, ?_, fun k hk => getReg_of_mul_of_ne (execMul_ok s) hk, rfl, rfl, rfl, rfl,
    fun _ => rfl⟩
  rw [getReg_zero_of_mul (execMul_ok s), toNat_mulBytes]

/-- Settles O15: the decrement comes before the address and the value are read. -/
theorem pushCompletes : Obligations.PushCompletes := by
  intro s reg r h
  refine ⟨_, execPush_ok h s, getReg_decSp_seven s, fun k hk => getReg_decSp_of_ne hk s, ?_, fun a ha => ?_,
    rfl, rfl, rfl, rfl⟩
  · rw [advance_mem, setMem_mem, decSp_spAddress, read_write, if_pos rfl, getReg_decSp]
  · rw [advance_mem, setMem_mem, decSp_spAddress, read_write, if_neg ha]

/-- Settles O16: the increment comes after the load, and acts on the loaded byte when that is in register 7. -/
theorem popCompletes : Obligations.PopCompletes := by
  intro s reg r h
  refine ⟨_, execPop_ok h s, fun hr => ⟨?_, ?_⟩, ?_, fun k hkr hk7 => ?_, rfl, rfl, rfl, rfl, fun _ => rfl⟩
  · rw [getReg_advance, getReg_incSp_of_ne hr, getReg_setReg_self, spAddress_eq]
  · rw [getReg_advance, getReg_incSp_seven, getReg_setReg_of_ne hr.symm]
  · rintro rfl
    rw [getReg_advance, getReg_incSp_seven, getReg_setReg_self, spAddress_eq]
  · rw [getReg_advance, getReg_incSp_of_ne hk7, getReg_setReg_of_ne hkr]

/-- Settles O17, from the state `HLT` completes in. -/
theorem hltCompletes : Obligations.HltCompletes :=
  fun s => ⟨_, execHlt_ok s, rfl, rfl, fun _ => rfl, rfl, rfl, fun _ => rfl⟩

/-- Settles O18: each of the four handlers takes the fault of `regIndex`. -/
theorem illegalRegisterByteFaults : Obligations.IllegalRegisterByteFaults :=
  fun s _ imm h => ⟨execLdi_error h imm s, execPrn_error h s, execPush_error h s, execPop_error h s⟩

/-! ### Frames -/

/-- No handler but that of `PUSH` writes memory. -/
theorem mem_of_exec {i : Instr} {s t : State} (h : exec i s = .next t) (hi : ∀ r, i ≠ .push r) : t.mem = s.mem := by
  rcases exec_cases h with ⟨_, -, -, rfl⟩ | ⟨_, _, _, -, -, rfl⟩ | ⟨_, _, -, -, rfl⟩ | ⟨-, rfl⟩ |
    ⟨reg, _, -, rfl, -⟩ | ⟨_, _, -, -, rfl⟩ | ⟨-, rfl⟩
  case inr.inr.inr.inr.inl => exact absurd rfl (hi reg)
  all_goals rfl

/-- No handler but that of `PRN` hands a byte to the output. -/
theorem out_of_exec {i : Instr} {s t : State} (h : exec i s = .next t) (hi : ∀ r, i ≠ .prn r) : t.out = s.out := by
  rcases exec_cases h with ⟨_, -, -, rfl⟩ | ⟨_, _, _, -, -, rfl⟩ | ⟨reg, _, -, rfl, -⟩ | ⟨-, rfl⟩ |
    ⟨_, _, -, -, rfl⟩ | ⟨_, _, -, -, rfl⟩ | ⟨-, rfl⟩
  case inr.inr.inl => exact absurd rfl (hi reg)
  all_goals rfl

/-- A handler leaves every register that the table of R14 does not list as written. -/
theorem getReg_of_not_written {i : Instr} {s t : State} (h : exec i s = .next t) {k : Fin 8}
    (hk : writesRegister i k = false) : t.getReg k = s.getReg k := by
  rcases exec_cases h with ⟨_, -, -, rfl⟩ | ⟨reg, imm, r, hr, rfl, rfl⟩ | ⟨_, _, -, rfl, rfl⟩ | ⟨rfl, rfl⟩ |
    ⟨reg, r, -, rfl, rfl⟩ | ⟨reg, r, hr, rfl, rfl⟩ | ⟨rfl, rfl⟩
  · rfl
  · have hkr : k ≠ r := by rintro rfl; simp [writesRegister, hr] at hk
    exact getReg_setReg_of_ne hkr s imm
  · rfl
  · exact getReg_setReg_of_ne (by simpa [writesRegister] using hk) s _
  · exact getReg_decSp_of_ne (by simpa [writesRegister] using hk) s
  · have hkr : k ≠ r := by rintro rfl; simp [writesRegister, hr] at hk
    have hk7 : k ≠ 7 := by rintro rfl; simp [writesRegister] at hk
    rw [getReg_advance, getReg_incSp_of_ne hk7, getReg_setReg_of_ne hkr]
  · rfl

/-- A handler leaves `FAULT`, or it faults on its register byte and changes nothing else (D5, D9). -/
theorem fault_of_exec {i : Instr} {s t : State} (h : exec i s = .next t) :
    t.fault = s.fault ∨ ∃ b : Byte, 7 < b.toNat ∧
      ((∃ v, i = .ldi b v) ∨ i = .prn b ∨ i = .push b ∨ i = .pop b) ∧ t = s.raise (.outOfBounds .reg b.toNat) := by
  rcases exec_cases h with hf | ⟨_, _, _, -, -, rfl⟩ | ⟨_, _, -, -, rfl⟩ | ⟨-, rfl⟩ | ⟨_, _, -, -, rfl⟩ |
    ⟨_, _, -, -, rfl⟩ | ⟨-, rfl⟩
  case inl => exact .inr hf
  all_goals exact .inl rfl

/-- Settles O19, part by part. -/
theorem nonStoringInstructionsFrame : Obligations.NonStoringInstructionsFrame := by
  intro i s t hpush h
  refine ⟨fun a => by rw [mem_of_exec h hpush], fun k hk => getReg_of_not_written h ?_,
    fun hi => by rw [exec_run h, if_neg hi], fun hi => out_of_exec h hi, ?_⟩
  · cases i with
    | push reg => exact absurd hk not_false
    | ldi reg imm => simpa [writesRegister] using hk
    | prn reg => rfl
    | mul => simpa [writesRegister] using hk
    | pop reg => simpa [writesRegister] using hk
    | hlt => rfl
  · rcases fault_of_exec h with hf | ⟨b, hb, hi, ht⟩
    · exact .inl hf
    · refine .inr ⟨b, hb, ?_, ht⟩
      rcases hi with hi | hi | hi | hi
      · exact .inl hi
      · exact .inr (.inl hi)
      · exact absurd hi (hpush b)
      · exact .inr (.inr hi)

/-- Settles O20: with a legal register byte the frame of the completion, with an illegal one that of the fault. -/
theorem pushFrame : Obligations.PushFrame := by
  intro reg s t h
  refine ⟨?_, fun k hk => getReg_of_not_written h (by simpa [writesRegister] using hk), by simpa using exec_run h,
    out_of_exec h (by simp), ?_⟩
  · rintro a rfl b hb
    rcases regByte_cases reg with ⟨r, hr⟩ | hr
    · rw [execPush_ok hr] at h
      cases h
      rw [advance_mem, setMem_mem, read_write, if_neg hb]
    · rw [execPush_error hr] at h
      cases h
      rfl
  · refine ⟨fun hle => ?_, fun hgt => ?_⟩
    · rw [execPush_ok (r := ⟨reg.toNat, by omega⟩) rfl] at h
      cases h
      rfl
    · rw [execPush_error hgt] at h
      cases h
      rfl

/-! ### What an instruction reads of the registers -/

/-- The state with another register file. -/
def State.withRegs (s : State) (rs : Vector Byte 8) : State := { s with regs := rs }

@[simp] theorem getReg_withRegs (s : State) (rs : Vector Byte 8) (k : Fin 8) : (s.withRegs rs).getReg k = rs[k] := rfl

@[simp] theorem withRegs_mem (s : State) (rs : Vector Byte 8) : (s.withRegs rs).mem = s.mem := rfl

/-- An instruction with an illegal register byte writes, by the table of R14, registers it also reads: that byte names
none, which leaves register 7 of `PUSH` and `POP`. -/
theorem reads_of_writes_of_illegal {i : Instr} {reg : Byte} {k : Fin 8} (hreg : 7 < reg.toNat)
    (hi : (∃ imm, i = .ldi reg imm) ∨ i = .prn reg ∨ i = .push reg ∨ i = .pop reg)
    (hk : writesRegister i k = true) : readsRegister i k = true := by
  have hne : k.val ≠ reg.toNat := by omega
  rcases hi with ⟨_, rfl⟩ | rfl | rfl | rfl
  · simp [writesRegister, hne] at hk
  · simp [writesRegister] at hk
  · simpa [readsRegister, hne, writesRegister] using hk
  · simpa [readsRegister, hne, writesRegister] using hk

theorem exec_illegal {i : Instr} {reg : Byte} (hreg : 7 < reg.toNat)
    (hi : (∃ imm, i = .ldi reg imm) ∨ i = .prn reg ∨ i = .push reg ∨ i = .pop reg) (s : State) :
    exec i s = .next (s.raise (.outOfBounds .reg reg.toNat)) := by
  rcases hi with ⟨imm, rfl⟩ | rfl | rfl | rfl
  · exact execLdi_error hreg imm s
  · exact execPrn_error hreg s
  · exact execPush_error hreg s
  · exact execPop_error hreg s

/-- With other registers that agree on those an instruction reads, it answers a state with the same everything else, and
with the same values in the registers it writes. -/
theorem exec_withRegs {i : Instr} {s t : State} {rs : Vector Byte 8} (h : exec i s = .next t)
    (hreads : ∀ k, readsRegister i k = true → rs[k] = s.getReg k) :
    ∃ t', exec i (s.withRegs rs) = .next t' ∧ t'.withRegs t.regs = t ∧
      ∀ k, writesRegister i k = true → t'.getReg k = t.getReg k := by
  rcases exec_cases h with ⟨reg, hreg, hi, rfl⟩ | ⟨reg, imm, r, hr, rfl, rfl⟩ | ⟨reg, r, hr, rfl, rfl⟩ | ⟨rfl, rfl⟩ |
    ⟨reg, r, hr, rfl, rfl⟩ | ⟨reg, r, hr, rfl, rfl⟩ | ⟨rfl, rfl⟩
  · exact ⟨_, exec_illegal hreg hi _, rfl, fun k hk => hreads k (reads_of_writes_of_illegal hreg hi hk)⟩
  · refine ⟨_, execLdi_ok hr imm _, rfl, fun k hk => ?_⟩
    have hkr : k = r := by simpa [writesRegister, hr, Fin.ext_iff] using hk
    simp [hkr]
  · have hv : rs[r] = s.getReg r := hreads r (by simp [readsRegister, hr])
    refine ⟨_, execPrn_ok hr _, ?_, fun k hk => by simp [writesRegister] at hk⟩
    rw [getReg_withRegs, hv]
    rfl
  · have h0 : rs[(0 : Fin 8)] = s.getReg 0 := hreads 0 rfl
    have h1 : rs[(1 : Fin 8)] = s.getReg 1 := hreads 1 rfl
    refine ⟨_, execMul_ok _, rfl, fun k hk => ?_⟩
    have hk0 : k = 0 := by simpa [writesRegister] using hk
    simp [hk0, h0, h1, -Fin.getElem_fin]
  · have h7 : rs[(7 : Fin 8)] = s.getReg 7 := hreads 7 rfl
    have hv : rs[r] = s.getReg r := hreads r (by simp [readsRegister, hr])
    refine ⟨_, execPush_ok hr _, ?_, fun k hk => ?_⟩
    · rw [decSp_spAddress, getReg_decSp, getReg_withRegs, getReg_withRegs, h7, hv, ← getReg_decSp, ← decSp_spAddress]
      rfl
    · have hk7 : k = 7 := by simpa [writesRegister] using hk
      simp [hk7, h7, -Fin.getElem_fin]
  · have h7 : rs[(7 : Fin 8)] = s.getReg 7 := hreads 7 rfl
    refine ⟨_, execPop_ok hr _, rfl, fun k hk => ?_⟩
    have hk' : k = r ∨ k = 7 := by simpa [writesRegister, hr, Fin.ext_iff] using hk
    simp only [getReg_advance, getReg_incSp, getReg_setReg, spAddress_eq, getReg_withRegs, withRegs_mem, h7]
    rcases hk' with rfl | rfl
    · simp only [if_true]
    · simp only [if_true]
  · exact ⟨_, execHlt_ok _, rfl, fun k hk => by simp [writesRegister] at hk⟩

/-- Settles O21: what is read decides everything else and the registers written, and a register not written is the one
each state had. -/
theorem registersReadAndWritten : Obligations.RegistersReadAndWritten := by
  intro i s t rs h hreads
  obtain ⟨t', h', hrest, hwritten⟩ := exec_withRegs h hreads
  exact ⟨t', h', hrest, hwritten, fun k hk => ⟨getReg_of_not_written h' hk, getReg_of_not_written h hk⟩⟩

end Sys2Proof.Machine
end

