-- ==== Sys2Proof/Proofs/Step.lean ====
section
/-! One step (spec 40_fetch_execute.md, 60_exceptions.md): which instruction it runs, when there is one, which fault it
meets, what it can change, and its agreement with the spec's pseudo-code. -/

namespace Sys2Proof.Machine

/-! ### The instruction at `pc` -/

theorem length_significantBytes_le (i : Instr) : (significantBytes i).length ≤ 3 := by
  cases i <;> simp [significantBytes]

theorem fetch_of_decode {s : State} {i : Instr} (h : decode s.window = .ok i) : s.fetch = .ok i := by
  simp [State.fetch, h]

/-- The fetch finds the instruction whose significant bytes stand at `pc`: the window begins with them. -/
theorem fetch_of_significantBytes {s : State} {i : Instr} (hlen : s.pc + (significantBytes i).length ≤ 256)
    (hb : ∀ k b, (significantBytes i)[k]? = some b → s.mem.read (s.pc + k) = b) : s.fetch = .ok i := by
  have hprefix : significantBytes i <+: s.window := by
    rw [List.prefix_iff_getElem?]
    intro k hk
    have hk3 := length_significantBytes_le i
    rw [window_getElem?, if_pos ⟨by omega, by omega⟩, hb k _ (List.getElem?_eq_getElem hk)]
  obtain ⟨rest, hw⟩ := hprefix
  exact fetch_of_decode (hw ▸ decode_significantBytes i rest)

/-- Settles O24: the fetch finds the instruction, and a running core executes what it fetched. -/
theorem stepRunsDecodedInstruction : Obligations.StepRunsDecodedInstruction :=
  fun _ _ hrun hfault hlen hb =>
    step_of_fetch_ok (stopped_eq_false.mpr ⟨hrun, hfault⟩) (fetch_of_significantBytes hlen hb)

theorem decode_of_decodeTableWord {nbits w : Nat} {i : Instr} (h : decodeTableWord nbits w = some i) :
    decode (bytesOfWord nbits w) = .ok i := by
  cases hd : decode (bytesOfWord nbits w) with
  | ok j => simpa [decodeTableWord, hd] using h
  | error e => simp [decodeTableWord, hd] at h

/-- Settles O25: the three bytes of the word stand in memory from `pc` on, and begin with the instruction's significant
bytes. -/
theorem placedWordRunsNext : Obligations.PlacedWordRunsNext := by
  refine fun s nbits w i hs hp hw => ⟨?_, rfl⟩
  obtain ⟨rest, hbytes⟩ := significantBytes_of_decode (decode_of_decodeTableWord hw)
  have hlen := length_significantBytes_le i
  obtain ⟨hrun, hfault⟩ := stopped_eq_false.mp hs
  refine stepRunsDecodedInstruction (s.withFetchWord nbits w) i hrun hfault
    (show s.pc + (significantBytes i).length ≤ 256 by omega) fun k b hk => ?_
  have hk3 : k < (significantBytes i).length := (List.getElem?_eq_some_iff.mp hk).1
  have hword : (bytesOfWord nbits w)[k]? = some b := by rw [hbytes, List.getElem?_append_left hk3, hk]
  exact read_storeBytes_of_getElem? hword (show s.pc + k < 256 by omega)

/-! ### When there is a step -/

/-- A core that is not stopped steps (R70). -/
theorem step_total {s : State} (h : s.stopped = false) : ∃ t, step s = .next t := by
  obtain ⟨t, ts, hform⟩ := exists_form s
  exact ⟨t, (step_of_form h hform).1⟩

/-- A step answers the reason the core is stopped for, and no other (log entry 3). -/
theorem step_eq_fault_iff {s : State} {r : Fault} : step s = .fault r ↔ s.stopReason = some r := by
  cases hs : s.stopped with
  | false =>
    obtain ⟨t, ht⟩ := step_total hs
    simp [ht, stopReason_eq_none.mpr hs]
  | true =>
    obtain ⟨r', hreason, hstep⟩ := step_stopped hs
    simp [hreason, hstep]

theorem stopReason_eq_recorded {s : State} {k : FaultRecord} :
    s.stopReason = some (.recorded k) ↔ s.fault = some k := by
  cases hf : s.fault <;> cases hr : s.run <;> simp [State.stopReason, hf, hr]

theorem stopReason_eq_halted {s : State} : s.stopReason = some .halted ↔ s.run = false ∧ s.fault = none := by
  cases hf : s.fault <;> cases hr : s.run <;> simp [State.stopReason, hf, hr]

/-- Settles O29: a core that is not stopped steps, and a stopped one answers its reason. -/
theorem stepExactlyWhenNotStopped : Obligations.StepExactlyWhenNotStopped := by
  refine fun s => ⟨⟨fun ⟨t, h⟩ => stopped_eq_false.mp (running_of_step h), fun h => step_total (stopped_eq_false.mpr h)⟩,
    fun k => step_eq_fault_iff.trans stopReason_eq_recorded, step_eq_fault_iff.trans stopReason_eq_halted,
    fun r h => ?_⟩
  cases hs : s.stopped with
  | false =>
    obtain ⟨t, ht⟩ := step_total hs
    rw [ht] at h
    cases h
  | true =>
    obtain ⟨r', -, ht⟩ := step_stopped hs
    rw [ht] at h
    cases h

/-! ### What a step can change -/

/-- `form_of_step` with the transactions left open, for a case analysis over the forms. -/
theorem exists_form_of_step {s t : State} (h : step s = .next t) : ∃ ts, StepForm s t ts := ⟨_, form_of_step h⟩

/-- A register byte above 7 is what R111 lets a fault record. -/
theorem legalAt_reg {b : Byte} (h : 7 < b.toNat) (pc : Nat) :
    (FaultRecord.outOfBounds .reg b.toNat).legalAt pc = true := by
  have hb := toNat_le_255 b
  simp only [FaultRecord.legalAt, Bool.and_eq_true, decide_eq_true_eq]
  omega

/-- An address of 256 to 258 is what R111 lets a fault record. -/
theorem legalAt_mem {a : Nat} (h : 255 < a) (ha : a ≤ 258) (pc : Nat) :
    (FaultRecord.outOfBounds .mem a).legalAt pc = true := by
  simp only [FaultRecord.legalAt, Bool.and_eq_true, decide_eq_true_eq]
  omega

/-- A step takes a fault, one that R111 allows when `pc` is in its range, or it completes the row of its opcode byte. -/
theorem raised_or_completed {s t : State} (h : step s = .next t) :
    (∃ k, (s.pc ≤ 258 → k.legalAt s.pc = true) ∧ t = s.raise k) ∨
    (t.fault = none ∧ ∃ row, lookup (s.mem.read s.pc) = some row ∧ s.pc ≤ 255 ∧ t.pc = s.pc + row.format.width) := by
  have hfault : s.fault = none := (stopped_eq_false.mp (running_of_step h)).2
  obtain ⟨ts, hform⟩ := exists_form_of_step h
  cases hform with
  | fetchBeyond hp => exact .inl ⟨_, fun h258 => legalAt_mem hp h258 _, rfl⟩
  | unknown hp ho => exact .inl ⟨_, fun _ => by simp [FaultRecord.legalAt, ho, hp], rfl⟩
  | operandBeyond hp ho | immediateBeyond hp ho => exact .inl ⟨_, fun _ => rfl, rfl⟩
  | ldiIllegal hp ho hr | prnIllegal hp ho hr | pushIllegal hp ho hr | popIllegal hp ho hr =>
    exact .inl ⟨_, fun _ => legalAt_reg hr _, rfl⟩
  | ldi hp ho r hr => exact .inr ⟨hfault, _, ho ▸ lookup_ldi, by omega, rfl⟩
  | prn hp ho r hr => exact .inr ⟨hfault, _, ho ▸ lookup_prn, by omega, rfl⟩
  | mul hp ho => exact .inr ⟨hfault, _, ho ▸ lookup_mul, hp, rfl⟩
  | push hp ho r hr => exact .inr ⟨hfault, _, ho ▸ lookup_push, by omega, rfl⟩
  | pop hp ho r hr => exact .inr ⟨hfault, _, ho ▸ lookup_pop, by omega, rfl⟩
  | hlt hp ho => exact .inr ⟨hfault, _, ho ▸ lookup_hlt, hp, rfl⟩

/-- Settles O30: a step that takes a fault has changed nothing else, and one that completes records none. -/
theorem stepIsAllOrNothing : Obligations.StepIsAllOrNothing := by
  intro s t h
  rcases raised_or_completed h with ⟨k, -, rfl⟩ | ⟨hnone, hrow⟩
  · exact ⟨fun _ => rfl, fun hk => by simp at hk⟩
  · exact ⟨fun hk => absurd hnone hk, fun _ => hrow⟩

/-- Memory after a step: as before, or a `PUSH` has written the one cell below the stack pointer. -/
theorem mem_of_step {s t : State} (h : step s = .next t) :
    t.mem = s.mem ∨ (s.mem.read s.pc = 0x45#8 ∧ ∃ v, t.mem = s.mem.write (s.getReg 7 - 1#8).toNat v) := by
  obtain ⟨ts, hform⟩ := exists_form_of_step h
  cases hform with
  | push hp ho r hr => exact .inr ⟨ho, s.decSp.getReg r, by rw [advance_mem, setMem_mem, decSp_spAddress]⟩
  | _ => exact .inl rfl

/-- Settles O33: the written cell is the only one that can read otherwise. -/
theorem onlyPushWritesMemory : Obligations.OnlyPushWritesMemory := by
  intro s t a h hne
  rcases mem_of_step h with hm | ⟨ho, v, hm⟩
  · rw [hm] at hne
    exact absurd rfl hne
  · refine ⟨ho, ?_⟩
    by_contra ha
    rw [hm, read_write, if_neg ha] at hne
    exact hne rfl

/-- Settles O34: of the forms of a step, only that of a completed `PRN` emits. -/
theorem outputGrowsByPrnOnly : Obligations.OutputGrowsByPrnOnly := by
  intro s t h
  obtain ⟨ts, hform⟩ := exists_form_of_step h
  cases hform with
  | prn hp ho r hr => exact .inr ⟨ho, r, hr, rfl⟩
  | _ => exact .inl rfl

/-! ### The order of the checks -/

theorem not_seven_lt_of_index {b : Byte} {r : Fin 8} (h : b.toNat = r.val) : ¬ 7 < b.toNat := by omega

/-- Settles O28: each form of a step stands in one branch of the cascade. -/
theorem faultChecksInOrder : Obligations.FaultChecksInOrder := by
  intro s t h
  have hfault : s.fault = none := (stopped_eq_false.mp (running_of_step h)).2
  obtain ⟨ts, hform⟩ := exists_form_of_step h
  cases hform with
  | fetchBeyond hp => rw [if_pos hp, raise_fault]
  | unknown hp ho =>
    rw [if_neg (by omega), if_pos (by simpa using lookup_eq_none.mp ho), raise_fault]
  | operandBeyond hp ho =>
    have h1 : 255 < s.pc + 1 := by omega
    have h256 : 256 = s.pc + 1 := by omega
    rcases ho with ho | ho | ho | ho <;> simp [ho, h1, h256, show ¬ 255 < s.pc by omega]
  | immediateBeyond hp ho =>
    have h1 : ¬ 255 < s.pc + 1 := by omega
    have h2 : 255 < s.pc + 2 := by omega
    have h256 : 256 = s.pc + 2 := by omega
    simp [ho, h1, h2, h256, show ¬ 255 < s.pc by omega]
  | ldi hp ho r hr =>
    simp [ho, not_seven_lt_of_index hr, hfault, hp.not_gt, show ¬ 255 < s.pc + 1 by omega,
      show ¬ 255 < s.pc by omega]
  | ldiIllegal hp ho hr =>
    simp [ho, hr, hp.not_gt, show ¬ 255 < s.pc + 1 by omega, show ¬ 255 < s.pc by omega]
  | prn hp ho r hr | push hp ho r hr | pop hp ho r hr =>
    simp [ho, not_seven_lt_of_index hr, hfault, hp.not_gt, show ¬ 255 < s.pc by omega]
  | prnIllegal hp ho hr | pushIllegal hp ho hr | popIllegal hp ho hr =>
    simp [ho, hr, hp.not_gt, show ¬ 255 < s.pc by omega]
  | mul hp ho | hlt hp ho => simp [ho, hp.not_gt, hfault]

/-- Settles O35: no branch of the cascade of checks is that fault. -/
theorem noStepRaisesUnsupportedOperation : Obligations.NoStepRaisesUnsupportedOperation := by
  intro s t name h
  rw [faultChecksInOrder s t h]
  split_ifs <;> simp

/-! ### The pseudo-code of R74 -/

/-- With `pc` in the address space the block `Step` dispatches on the opcode byte. -/
theorem pseudoStep_of_pc_le {s : State} (hp : s.pc ≤ 255) : pseudoStep s =
    if s.mem.read s.pc = 0x82#8 then pseudoLdi s
    else if s.mem.read s.pc = 0x47#8 then pseudoPrn s
    else if s.mem.read s.pc = 0xA2#8 then pseudoMul s
    else if s.mem.read s.pc = 0x45#8 then pseudoPush s
    else if s.mem.read s.pc = 0x46#8 then pseudoPop s
    else if s.mem.read s.pc = 0x01#8 then pseudoHlt s
    else .error (.unknownInstruction (s.mem.read s.pc) s.pc) := by
  simp only [pseudoStep, memRead_ok s hp, bind, Except.bind]

/-- The block of R93 with a legal register byte: its store is at a byte, hence in bounds. -/
theorem pseudoPush_ok {s : State} {r : Fin 8} (hp : s.pc + 1 ≤ 255) (hr : (s.mem.read (s.pc + 1)).toNat = r.val) :
    pseudoPush s = .ok ((s.decSp.setMem (s.mem.write s.decSp.spAddress (s.decSp.getReg r))).advance 2) := by
  simp only [pseudoPush, memRead_ok s hp, regIndex_ok hr, bind, Except.bind, memWrite_byte]
  rfl

/-- The block of R94 with a legal register byte: its load is at a byte, hence in bounds. -/
theorem pseudoPop_ok {s : State} {r : Fin 8} (hp : s.pc + 1 ≤ 255) (hr : (s.mem.read (s.pc + 1)).toNat = r.val) :
    pseudoPop s = .ok ((s.setReg r (s.mem.read s.spAddress)).incSp.advance 2) := by
  simp only [pseudoPop, memRead_ok s hp, regIndex_ok hr, bind, Except.bind, memRead_byte]
  rfl

/-- In every form of a step the pseudo-code ends in that form's state, or raises its fault. -/
theorem settle_pseudoStep_of_form {s t : State} {ts : List Transaction} (h : StepForm s t ts) :
    settle s (pseudoStep s) = .next t := by
  cases h with
  | fetchBeyond hp => simp [pseudoStep, memRead_error s hp, bind, Except.bind]
  | unknown hp ho =>
    obtain ⟨h1, h2, h3, h4, h5, h6⟩ := lookup_eq_none.mp ho
    simp [pseudoStep_of_pc_le hp, h1, h2, h3, h4, h5, h6]
  | operandBeyond hp ho =>
    have h1 : s.memRead (s.pc + 1) = .error (.outOfBounds .mem 256) := by rw [memRead_error s (by omega), hp]
    rcases ho with ho | ho | ho | ho <;>
      simp [pseudoStep_of_pc_le (s := s) (by omega), ho, pseudoLdi, pseudoPrn, pseudoPush, pseudoPop, h1, bind,
        Except.bind]
  | immediateBeyond hp ho =>
    have h1 := memRead_ok s (a := s.pc + 1) (by omega)
    have h2 : s.memRead (s.pc + 2) = .error (.outOfBounds .mem 256) := by rw [memRead_error s (by omega), hp]
    simp [pseudoStep_of_pc_le (s := s) (by omega), ho, pseudoLdi, h1, h2, bind, Except.bind]
  | ldi hp ho r hr =>
    have h1 := memRead_ok s (a := s.pc + 1) (by omega)
    simp [pseudoStep_of_pc_le (s := s) (by omega), ho, pseudoLdi, h1, memRead_ok s hp, regIndex_ok hr, bind, Except.bind]
  | ldiIllegal hp ho hr =>
    have h1 := memRead_ok s (a := s.pc + 1) (by omega)
    simp [pseudoStep_of_pc_le (s := s) (by omega), ho, pseudoLdi, h1, memRead_ok s hp, regIndex_error hr, bind,
      Except.bind]
  | prn hp ho r hr =>
    simp [pseudoStep_of_pc_le (s := s) (by omega), ho, pseudoPrn, memRead_ok s hp, regIndex_ok hr, bind, Except.bind]
  | prnIllegal hp ho hr | pushIllegal hp ho hr | popIllegal hp ho hr =>
    simp [pseudoStep_of_pc_le (s := s) (by omega), ho, pseudoPrn, pseudoPush, pseudoPop, memRead_ok s hp,
      regIndex_error hr, bind, Except.bind]
  | mul hp ho => simp [pseudoStep_of_pc_le hp, ho, pseudoMul, mulBytes]
  | push hp ho r hr => simp [pseudoStep_of_pc_le (s := s) (by omega), ho, pseudoPush_ok hp hr]
  | pop hp ho r hr => simp [pseudoStep_of_pc_le (s := s) (by omega), ho, pseudoPop_ok hp hr]
  | hlt hp ho => simp [pseudoStep_of_pc_le hp, ho, pseudoHlt]

/-- Settles O36: the step has a form, and the pseudo-code ends as that form does. -/
theorem stepIsThePseudoCode : Obligations.StepIsThePseudoCode := by
  intro s hrun hfault
  obtain ⟨t, ts, hform⟩ := exists_form s
  rw [(step_of_form (stopped_eq_false.mpr ⟨hrun, hfault⟩) hform).1, ← settle_pseudoStep_of_form hform]
  cases pseudoStep s <;> rfl

end Sys2Proof.Machine
end

