-- ==== Sys2Proof/Proofs/Bus.lean ====
section
/-! The transactions of a step (spec 20_memory.md R34, 80_interfaces.md R150, R151): their order and bounds, that they are
all a step does to memory and output, and that a step learns of memory only what they read. -/

namespace Sys2Proof.Machine

/-- The address of a read or write. -/
def Transaction.address? : Transaction → Option Nat
  | .read a => some a
  | .write a _ => some a
  | .emit _ => none

/-- No transaction of a step is out of bounds (R34). -/
theorem address_le_of_form {s t : State} {ts : List Transaction} (h : StepForm s t ts) {x : Transaction} {a : Nat}
    (hx : x ∈ ts) (ha : x.address? = some a) : a ≤ 255 := by
  cases h <;> simp only [List.mem_cons, List.not_mem_nil, or_false] at hx
  case unknown | operandBeyond | mul | hlt => subst hx; cases ha; omega
  case immediateBeyond | prnIllegal | pushIllegal | popIllegal => rcases hx with rfl | rfl <;> cases ha <;> omega
  case ldi | ldiIllegal => rcases hx with rfl | rfl | rfl <;> cases ha <;> omega
  case prn => rcases hx with rfl | rfl | rfl <;> cases ha <;> omega
  case push | pop =>
    rcases hx with rfl | rfl | rfl <;> cases ha
    · omega
    · omega
    · exact toNat_le_255 _

/-- The bound for a running core or a stopped one, which makes no transaction. -/
theorem address_le_of_mem {s : State} {x : Transaction} {a : Nat} (hx : x ∈ s.stepTransactions)
    (ha : x.address? = some a) : a ≤ 255 := by
  cases hs : s.stopped with
  | true => simp [stepTransactions_of_stopped hs] at hx
  | false =>
    obtain ⟨t, h⟩ := step_total hs
    exact address_le_of_form (form_of_step h) hx ha

/-- Settles O37: the transactions of the six forms that complete, and the bound on every address. -/
theorem transactionsInOrder : Obligations.TransactionsInOrder := by
  intro s hs
  refine ⟨fun ho hp => ?_, fun r ho hp hr => (step_of_form hs (.prn hp ho r hr)).2,
    fun ho hp => (step_of_form hs (.mul hp ho)).2, fun r ho hp hr => ?_,
    fun r ho hp hr => (step_of_form hs (.pop hp ho r hr)).2, fun ho hp => (step_of_form hs (.hlt hp ho)).2,
    fun a ha => address_le_of_mem ha rfl, fun a v ha => address_le_of_mem ha rfl⟩
  · rcases regByte_cases (s.mem.read (s.pc + 1)) with ⟨r, hr⟩ | hr
    · exact (step_of_form hs (.ldi hp ho r hr)).2
    · exact (step_of_form hs (.ldiIllegal hp ho hr)).2
  · rw [(step_of_form hs (.push hp ho r hr)).2, decSp_spAddress, getReg_decSp]

/-- Settles O38: in each form the next state has the writes and the emitted byte of the form's transactions, if any. -/
theorem stepEffectsAreItsTransactions : Obligations.StepEffectsAreItsTransactions := by
  intro s t h
  have hform := form_of_step h
  generalize s.stepTransactions = ts at hform
  cases hform with
  | push hp ho r hr => exact ⟨rfl, (List.append_nil _).symm⟩
  | prn hp ho r hr => exact ⟨rfl, rfl⟩
  | _ => exact ⟨rfl, (List.append_nil _).symm⟩

/-- With another memory that agrees on the addresses read, the step has the same form, its writes applied to that
memory. -/
theorem form_setMem {s t : State} {ts : List Transaction} {m : Memory} (h : StepForm s t ts)
    (hreads : ∀ a, .read a ∈ ts → m.read a = s.mem.read a) :
    StepForm (s.setMem m) (t.setMem (m.applyTransactions ts)) ts := by
  have hop : .read s.pc ∈ ts → m.read s.pc = s.mem.read s.pc := hreads s.pc
  have hreg : .read (s.pc + 1) ∈ ts → m.read (s.pc + 1) = s.mem.read (s.pc + 1) := hreads (s.pc + 1)
  cases h with
  | fetchBeyond hp => exact .fetchBeyond (s := s.setMem m) hp
  | unknown hp ho =>
    rw [← hop (by simp)] at ho ⊢
    exact .unknown (s := s.setMem m) hp ho
  | operandBeyond hp ho =>
    rw [← hop (by simp)] at ho
    exact .operandBeyond (s := s.setMem m) hp ho
  | immediateBeyond hp ho =>
    rw [← hop (by simp)] at ho
    exact .immediateBeyond (s := s.setMem m) hp ho
  | ldi hp ho r hr =>
    rw [← hop (by simp)] at ho
    rw [← hreg (by simp)] at hr
    rw [← hreads (s.pc + 2) (by simp)]
    exact .ldi (s := s.setMem m) hp ho r hr
  | ldiIllegal hp ho hr =>
    rw [← hop (by simp)] at ho
    rw [← hreg (by simp)] at hr ⊢
    exact .ldiIllegal (s := s.setMem m) hp ho hr
  | prn hp ho r hr =>
    rw [← hop (by simp)] at ho
    rw [← hreg (by simp)] at hr
    exact .prn (s := s.setMem m) hp ho r hr
  | prnIllegal hp ho hr =>
    rw [← hop (by simp)] at ho
    rw [← hreg (by simp)] at hr ⊢
    exact .prnIllegal (s := s.setMem m) hp ho hr
  | mul hp ho =>
    rw [← hop (by simp)] at ho
    exact .mul (s := s.setMem m) hp ho
  | push hp ho r hr =>
    rw [← hop (by simp)] at ho
    rw [← hreg (by simp)] at hr
    exact .push (s := s.setMem m) hp ho r hr
  | pushIllegal hp ho hr =>
    rw [← hop (by simp)] at ho
    rw [← hreg (by simp)] at hr ⊢
    exact .pushIllegal (s := s.setMem m) hp ho hr
  | pop hp ho r hr =>
    rw [← hop (by simp)] at ho
    rw [← hreg (by simp)] at hr
    rw [← hreads s.spAddress (by simp)]
    exact .pop (s := s.setMem m) hp ho r hr
  | popIllegal hp ho hr =>
    rw [← hop (by simp)] at ho
    rw [← hreg (by simp)] at hr ⊢
    exact .popIllegal (s := s.setMem m) hp ho hr
  | hlt hp ho =>
    rw [← hop (by simp)] at ho
    exact .hlt (s := s.setMem m) hp ho

/-- Settles O39: the form of the step is the same with the other memory, and a running core's step is its form. -/
theorem stepDependsOnlyOnCellsItReads : Obligations.StepDependsOnlyOnCellsItReads := by
  intro s t m h hreads
  have hs : (s.setMem m).stopped = false := running_of_step (s := s) h
  obtain ⟨hstep, htrans⟩ := step_of_form hs (form_setMem (form_of_step h) hreads)
  exact ⟨htrans, hstep⟩

end Sys2Proof.Machine
end

