-- ==== Sys2Proof/Proofs/Environment.lean ====
section
/-! The ALU entry point (spec 42_mul_alu.md, 80_interfaces.md R156), the exit code, the end by a fault (60_exceptions.md),
and who moves the stack pointer (43_stack.md). -/

namespace Sys2Proof.Machine

/-! ### The ALU entry point -/

/-- The narrowed sum is the remainder of the exact one on division by 256 (R88, R91). -/
theorem toNat_addBytes (a b : Byte) : (addBytes a b).toNat = (a.toNat + b.toNat) % 256 := toNat_narrow _

theorem addBytes_eq_add (a b : Byte) : addBytes a b = a + b := by
  apply BitVec.eq_of_toNat_eq
  rw [toNat_addBytes, BitVec.toNat_add]

/-- `ADD` with legal indices, on a core that is not stopped (R88). -/
theorem aluInvoke_add_ok {s : State} {a b : Byte} {ra rb : Fin 8} (hs : s.stopped = false) (ha : a.toNat = ra.val)
    (hb : b.toNat = rb.val) : aluInvoke .add a b s = s.setReg ra (addBytes (s.getReg ra) (s.getReg rb)) := by
  simp [aluInvoke, hs, alu, aluAdd, regIndex_ok ha, regIndex_ok hb, bind, Except.bind]

/-- The name is checked first (R89, D13). -/
theorem aluInvoke_other {s : State} (hs : s.stopped = false) (name : String) (hn : name ≠ "ADD") (a b : Byte) :
    aluInvoke (.other name hn) a b s = s.raise (.unsupportedOperation name) := by
  simp [aluInvoke, hs, alu]

/-- The first index is checked before the second (D13). -/
theorem aluInvoke_add_first_illegal {s : State} {a : Byte} (hs : s.stopped = false) (ha : 7 < a.toNat) (b : Byte) :
    aluInvoke .add a b s = s.raise (.outOfBounds .reg a.toNat) := by
  simp [aluInvoke, hs, alu, aluAdd, regIndex_error ha, bind, Except.bind]

theorem aluInvoke_add_second_illegal {s : State} {a b : Byte} {ra : Fin 8} (hs : s.stopped = false)
    (ha : a.toNat = ra.val) (hb : 7 < b.toNat) : aluInvoke .add a b s = s.raise (.outOfBounds .reg b.toNat) := by
  simp [aluInvoke, hs, alu, aluAdd, regIndex_ok ha, regIndex_error hb, bind, Except.bind]

/-- Settles O40: the invocation is the write of one register. -/
theorem aluAddCompletes : Obligations.AluAddCompletes := by
  intro s a b ra rb hs ha hb
  rw [aluInvoke_add_ok hs ha hb]
  refine ⟨?_, fun k hk => getReg_setReg_of_ne hk s _, rfl⟩
  rw [getReg_setReg_self, toNat_addBytes]

/-- Settles O41, check by check. -/
theorem aluFaultsInOrder : Obligations.AluFaultsInOrder := by
  refine fun s op a b => ⟨fun hs => aluInvoke_stopped hs op a b, fun hs => ⟨?_, ?_, ?_⟩⟩
  · rintro name hn rfl
    exact aluInvoke_other hs name hn a b
  · rintro rfl ha
    exact aluInvoke_add_first_illegal hs ha b
  · rintro rfl ha hb
    exact aluInvoke_add_second_illegal (ra := ⟨a.toNat, by omega⟩) hs rfl hb

/-! ### The exit code, and the end by a fault -/

theorem exitCode_of_fault {s : State} {k : FaultRecord} (h : s.fault = some k) : s.exitCode = some k.cause := by
  simp [State.exitCode, h]

theorem cause_ne_zero (k : FaultRecord) : k.cause ≠ 0 := by cases k <;> simp [FaultRecord.cause]

/-- Settles O42: the code of each record, and without a record the two values of `RUN`. -/
theorem exitCodeTable : Obligations.ExitCodeTable := by
  intro s
  cases hf : s.fault with
  | none => cases hr : s.run <;> simp [State.exitCode, State.stopped, hf, hr]
  | some k => cases k <;> simp [exitCode_of_fault hf, FaultRecord.cause, State.stopped, hf]

/-- A core that was not stopped and now records a fault has taken it, and nothing else has changed. -/
theorem eq_raise_of_fault {s t : State} {k : FaultRecord} (hs : s.stopped = false)
    (h : step s = .next t ∨ ∃ op a b, aluInvoke op a b s = t) (hk : t.fault = some k) : t = s.raise k := by
  have hnone : s.fault = none := (stopped_eq_false.mp hs).2
  rcases h with h | ⟨op, a, b, rfl⟩
  · rcases raised_or_completed h with ⟨k', -, rfl⟩ | ⟨hfault, -⟩
    · cases hk; rfl
    · rw [hfault] at hk; cases hk
  · rcases aluInvoke_cases op a b s with ⟨hstop, -⟩ | ⟨-, k', ht, -⟩ | ⟨-, -, ra, rb, -, -, ht⟩
    · rw [hs] at hstop; cases hstop
    · rw [ht] at hk ⊢
      cases hk; rfl
    · rw [ht, setReg_fault, hnone] at hk; cases hk

/-- Settles O31: the state is the old one with the fault taken, and that is a stopped core. -/
theorem faultIsFatal : Obligations.FaultIsFatal := by
  intro s t k hs h hk
  obtain rfl := eq_raise_of_fault hs h hk
  exact ⟨step_eq_fault_iff.mpr (stopReason_eq_recorded.mpr hk), runLoop_stopped (raise_stopped s k), rfl,
    _, exitCode_of_fault hk, cause_ne_zero k⟩

/-! ### The stack pointer -/

/-- Settles O23: the table of registers written for what leaves register 7, and the completions of `LDI`, `POP`, `ADD` and
`PUSH` for what moves it. -/
theorem stackPointerLeftToSoftware : Obligations.StackPointerLeftToSoftware := by
  have hseven : (7#8 : Byte).toNat = (7 : Fin 8).val := by decide
  refine ⟨fun i s t h hi => getReg_of_not_written h ?_, fun s v => ⟨_, execLdi_ok hseven v s, getReg_setReg_self s 7 v⟩,
    fun s => ?_, fun s b rb hs hb => ?_, fun s r hr => ?_, fun s r hr => ?_⟩
  · rcases hi with rfl | ⟨r, rfl⟩ | rfl | ⟨r, v, rfl, hne⟩
    · rfl
    · rfl
    · rfl
    · have hr : r.toNat ≠ 7 := fun hr => hne (BitVec.eq_of_toNat_eq hr)
      simpa [writesRegister] using hr.symm
  · obtain ⟨t, ht, -, h7, -⟩ := popCompletes s _ 7 hseven
    exact ⟨t, ht, h7 rfl⟩
  · rw [aluInvoke_add_ok hs hseven hb, getReg_setReg_self, addBytes_eq_add]
  · obtain ⟨t, ht, h7, -, -, -, -, -, hfault, -⟩ := pushCompletes s r ⟨r.toNat, by omega⟩ rfl
    exact ⟨t, ht, hfault, h7⟩
  · obtain ⟨t, ht, hne, -, -, -, -, hfault, -⟩ := popCompletes s r ⟨r.toNat, by omega⟩ rfl
    have hr7 : (⟨r.toNat, by omega⟩ : Fin 8) ≠ 7 := Fin.ne_of_val_ne (show r.toNat ≠ 7 by omega)
    exact ⟨t, ht, hfault, (hne hr7).2⟩

end Sys2Proof.Machine
end

