-- ==== Sys2Proof/Proofs/Sequences.lean ====
section
/-! Instructions one after the other (spec 41_ldi_prn.md, 43_stack.md, 20_memory.md section 8): the pair `LDI`, `PRN`, the
stack discipline, and a `PUSH` onto the code that runs next. -/

namespace Sys2Proof.Machine

/-! ### `LDI` then `PRN` -/

/-- Settles O44: the form of a legal `LDI`, then that of a legal `PRN` three cells further on. -/
theorem ldiThenPrnEmitsTheValue : Obligations.LdiThenPrnEmitsTheValue := by
  intro s n v hs hp hldi hreg hv hprn hreg'
  obtain ⟨hstep, -⟩ := step_of_form hs (.ldi (by omega) hldi n hreg)
  have hs' : ((s.setReg n (s.mem.read (s.pc + 2))).advance 3).stopped = false :=
    stopped_eq_false.mpr (stopped_eq_false.mp hs)
  obtain ⟨hstep', -⟩ := step_of_form hs' (.prn (show s.pc + 3 + 1 ≤ 255 by omega) hprn n hreg')
  refine ⟨_, _, hstep, hstep', ?_, ?_, fun k hk => getReg_setReg_of_ne hk s _, rfl, rfl, rfl, rfl⟩
  · simp [hv]
  · simp [hv]

/-! ### The stack -/

theorem execAll_cons {i : Instr} {is : List Instr} {s t : State} (h : exec i s = .next t) :
    execAll (i :: is) s = execAll is t := by
  simp only [execAll, h]

/-- Settles O45, by the completions of `PUSH` and of `POP`: the one reads back the cell the other wrote. -/
theorem pushThenPopRestores : Obligations.PushThenPopRestores := by
  intro s r r2
  obtain ⟨t, hpush, ht7, htk, htmem, -, htpc, -⟩ := pushCompletes s _ r (regByte_toNat r)
  obtain ⟨u, hpop, hune, hu7, huk, hupc, -⟩ := popCompletes t _ r2 (regByte_toNat r2)
  rw [ht7, htmem, BitVec.sub_add_cancel] at hune
  rw [ht7, htmem] at hu7
  refine ⟨u, by rw [execAll_cons hpush, execAll_cons hpop, execAll], by omega,
    fun k hk2 hk7 => by rw [huk k hk2 hk7, htk k hk7], fun hr hr2 => ?_, fun hr hr2 => ?_, fun hr hr2 => ?_,
    fun hr hr2 => ?_⟩
  · simpa only [if_neg hr] using hune hr2
  · simpa only [if_pos hr] using hune hr2
  · simpa only [if_neg hr] using hu7 hr2
  · simpa only [if_pos hr, BitVec.sub_add_cancel] using hu7 hr2

/-- Settles O46: the second push stores one cell lower, so the first value still stands when the second pop reads it. -/
theorem stackIsLastInFirstOut : Obligations.StackIsLastInFirstOut := by
  intro s a b c d ha hb hc hd
  obtain ⟨s1, h1, h1sp, h1k, h1mem, -⟩ := pushCompletes s _ a (regByte_toNat a)
  obtain ⟨s2, h2, h2sp, h2k, h2mem, h2rest, -⟩ := pushCompletes s1 _ b (regByte_toNat b)
  obtain ⟨s3, h3, h3c, -, h3k, -, -, -, -, h3mem⟩ := popCompletes s2 _ c (regByte_toNat c)
  obtain ⟨u, h4, h4d, -, h4k, -⟩ := popCompletes s3 _ d (regByte_toNat d)
  obtain ⟨hcval, h3sp⟩ := h3c hc
  obtain ⟨hdval, husp⟩ := h4d hd
  have hsp : s3.getReg 7 = s.getReg 7 - 1#8 := by rw [h3sp, h2sp, BitVec.sub_add_cancel, h1sp]
  have hcell : (s.getReg 7 - 1#8).toNat ≠ (s1.getReg 7 - 1#8).toNat := by rw [h1sp]; bv_omega
  refine ⟨u, by rw [execAll_cons h1, execAll_cons h2, execAll_cons h3, execAll_cons h4, execAll], fun hcd => ?_, ?_, ?_⟩
  · calc u.getReg c = s3.getReg c := h4k c hcd hc
      _ = s1.getReg b := by rw [hcval, h2sp, h2mem, if_neg hb]
      _ = s.getReg b := h1k b hb
  · rw [hdval, hsp, h3mem, h2rest _ hcell, h1mem, if_neg ha]
  · rw [husp, hsp, BitVec.sub_add_cancel]

/-! ### A row of pushes -/

/-- The address that push number `j + 1` in a row stores to (R93, D6). -/
def State.pushSlot (s : State) (j : Nat) : Nat := (s.getReg 7 - BitVec.ofNat 8 (j + 1)).toNat

/-- 256 pushes in a row store to different addresses. -/
theorem pushSlot_ne (s : State) {i j : Nat} (hi : i < 256) (hj : j < 256) (h : i ≠ j) :
    s.pushSlot i ≠ s.pushSlot j := by
  simp only [State.pushSlot, BitVec.toNat_sub, BitVec.toNat_ofNat]
  omega

theorem sub_one_sub_ofNat (x : Byte) (n : Nat) : x - 1#8 - BitVec.ofNat 8 n = x - BitVec.ofNat 8 (n + 1) := by
  apply BitVec.eq_of_toNat_eq
  simp only [BitVec.toNat_sub, BitVec.toNat_ofNat]
  omega

/-- After one push the slots of the others are those of the row, one on. -/
theorem pushSlot_of_pushed {s t : State} (h : t.getReg 7 = s.getReg 7 - 1#8) (j : Nat) :
    t.pushSlot j = s.pushSlot (j + 1) := by
  rw [State.pushSlot, h, sub_one_sub_ofNat]
  rfl

/-- What a row of pushes of the registers `rs` leads to from `s`. -/
structure PushedRow (s : State) (rs : List (Fin 8)) (t : State) : Prop where
  sp : t.getReg 7 = s.getReg 7 - BitVec.ofNat 8 rs.length
  regs : ∀ k, k ≠ 7 → t.getReg k = s.getReg k
  stored : ∀ (j : Nat) (r : Fin 8), rs[j]? = some r → t.mem.read (s.pushSlot j) = s.getReg r
  unchanged : ∀ a, (∀ j, j < rs.length → a ≠ s.pushSlot j) → t.mem.read a = s.mem.read a

/-- One push before a row of pushes: the row stores to none of the cells above it. -/
theorem pushedRow_cons {s s1 t : State} {r : Fin 8} {rs : List (Fin 8)} (hr : r ≠ 7) (hrs : ∀ r' ∈ rs, r' ≠ 7)
    (hlen : rs.length < 256) (hpush : exec (.push (regByte r)) s = .next s1) (h : PushedRow s1 rs t) :
    PushedRow s (r :: rs) t := by
  obtain ⟨s1', hpush', hsp, hregs, hcell, hrest, -⟩ := pushCompletes s _ r (regByte_toNat r)
  rw [hpush] at hpush'
  cases hpush'
  refine ⟨?_, fun k hk => by rw [h.regs k hk, hregs k hk], fun j r' hj => ?_, fun a ha => ?_⟩
  · rw [h.sp, hsp, sub_one_sub_ofNat, List.length_cons]
  · cases j with
    | zero =>
      cases hj
      rw [h.unchanged _ fun j hj => ?_]
      · rw [if_neg hr] at hcell
        exact hcell
      · rw [pushSlot_of_pushed hsp]
        exact pushSlot_ne s (by omega) (by omega) (by omega)
    | succ j =>
      rw [← pushSlot_of_pushed hsp, h.stored j r' hj, hregs r' (hrs r' (List.mem_of_getElem? hj))]
  · rw [h.unchanged a fun j hj => ?_]
    · exact hrest a (ha 0 (by simp))
    · rw [pushSlot_of_pushed hsp]
      exact ha (j + 1) (by simpa using hj)

theorem exists_pushedRow {rs : List (Fin 8)} : ∀ {s : State}, (∀ r ∈ rs, r ≠ 7) → rs.length ≤ 256 →
    ∃ t, execAll (rs.map fun r => .push (regByte r)) s = .next t ∧ PushedRow s rs t := by
  induction rs with
  | nil => exact fun {s} _ _ => ⟨s, rfl, by simp, fun _ _ => rfl, fun j r hj => by simp at hj, fun _ _ => rfl⟩
  | cons r rs ih =>
    intro s hrs hlen
    rw [List.length_cons] at hlen
    rw [List.forall_mem_cons] at hrs
    obtain ⟨s1, hpush⟩ := exec_total (.push (regByte r)) s
    obtain ⟨t, hall, hrow⟩ := ih (s := s1) hrs.2 (by omega)
    exact ⟨t, by rw [List.map_cons, execAll_cons hpush, hall], pushedRow_cons hrs.1 hrs.2 (by omega) hpush hrow⟩

/-- Settles O47, by the induction on the row above. -/
theorem repeatedPushesDescend : Obligations.RepeatedPushesDescend := by
  intro s rs hrs hlen
  obtain ⟨t, hall, hrow⟩ := exists_pushedRow (s := s) hrs hlen
  exact ⟨t, hall, hrow.sp, hrow.regs, hrow.stored⟩

/-! ### A `PUSH` onto the code -/

/-- Settles O48: the pushed byte stands at the new `pc`, so the next step has the form that byte says. -/
theorem pushedByteIsFetchedNext : Obligations.PushedByteIsFetchedNext := by
  intro s r v hs hp hpush hr hslot hv
  obtain ⟨hstep, -⟩ := step_of_form hs (.push (by omega) hpush r hr)
  set t := (s.decSp.setMem (s.mem.write s.decSp.spAddress (s.decSp.getReg r))).advance 2 with ht
  have hs' : t.stopped = false := stopped_eq_false.mpr (stopped_eq_false.mp hs)
  have hbyte : t.mem.read t.pc = v := by
    rw [hv, ht, advance_mem, setMem_mem, decSp_spAddress, hslot, ← getReg_decSp]
    exact (read_write ..).trans (if_pos rfl)
  refine ⟨t, hstep, rfl, hbyte, fun hhlt => ?_, fun hno => ?_⟩
  · refine ⟨_, (step_of_form hs' (.hlt hp (hbyte.trans hhlt))).1, rfl, (stopped_eq_false.mp hs').2⟩
  · have hl : lookup (t.mem.read t.pc) = none := hbyte ▸ lookup_eq_none.mpr (by simpa using hno)
    refine ⟨_, (step_of_form hs' (.unknown hp hl)).1, ?_⟩
    rw [raise_fault, hbyte]
    rfl

end Sys2Proof.Machine
end

