-- ==== Sys2Proof/Proofs/Invariant.lean ====
section
/-! Every run and every reachable state (spec 10_state.md section 6, 40_fetch_execute.md R77): the invariant, the bound on
the steps of a run, and what a stopped core keeps. -/

namespace Sys2Proof.Machine

/-! ### What keeps the invariant -/

theorem width_le (f : Format) : f.width ≤ 3 := by cases f <;> simp [Format.width]

/-- Another canonical memory keeps the invariant. -/
theorem setMem_inv {s : State} (hi : s.Inv) {m : Memory} (hm : m.wf = true) : (s.setMem m).Inv :=
  ⟨hm, hi.pc_in_range, hi.fault_keeps_run, hi.fault_legal⟩

/-- A fault that R111 allows, taken on a core that is not stopped, keeps the invariant. -/
theorem raise_inv {s : State} (hi : s.Inv) (hs : s.stopped = false) {k : FaultRecord} (hk : k.legalAt s.pc = true) :
    (s.raise k).Inv :=
  ⟨hi.memory_canonical, hi.pc_in_range, fun _ => (stopped_eq_false.mp hs).1, fun _ h => by cases h; exact hk⟩

/-- A step keeps memory canonical: it writes at most one cell, at an address that is a byte. -/
theorem step_mem_wf {s t : State} (hm : s.mem.wf = true) (h : step s = .next t) : t.mem.wf = true := by
  rcases mem_of_step h with ht | ⟨-, v, ht⟩
  · rw [ht]
    exact hm
  · rw [ht]
    exact write_wf hm (s.getReg 7 - 1#8).isLt v

/-- Settles O50: a step takes a fault that R111 allows, or it completes from a `pc` in the address space and records
none. -/
theorem stepKeepsInvariant : Obligations.StepKeepsInvariant := by
  intro s t hi h
  rcases raised_or_completed h with ⟨k, hk, rfl⟩ | ⟨hnone, row, -, hle, hpc⟩
  · exact raise_inv hi (running_of_step h) (hk hi.pc_in_range)
  · have hwidth := width_le row.format
    exact ⟨step_mem_wf hi.memory_canonical h, by omega, fun hf => absurd hnone hf, fun k hk => by simp [hnone] at hk⟩

/-- Settles O51: reset memory is empty, `pc` is 0, and no fault is recorded. -/
theorem resetHasInvariant : Obligations.ResetHasInvariant :=
  ⟨reset_mem_wf, by decide, fun _ => rfl, fun _ h => by cases h⟩

/-- A load that is not refused leaves the core alone or stores bytes from address 0 on. -/
theorem eq_of_load {prog : List Nat} {s t : State} (h : load prog s = .next t) :
    t = s ∨ ∃ bs, t = s.setMem (s.mem.storeBytes 0 bs) := by
  by_cases hlen : prog.length ≤ 256
  · cases hs : s.stopped with
    | true => rw [load_stopped hs hlen] at h; cases h; exact .inl rfl
    | false => rw [load_ok hs hlen] at h; cases h; exact .inr ⟨_, rfl⟩
  · rw [load_tooLong (by omega)] at h; cases h

theorem load_inv {prog : List Nat} {s t : State} (hi : s.Inv) (h : load prog s = .next t) : t.Inv := by
  rcases eq_of_load h with rfl | ⟨bs, rfl⟩
  · exact hi
  · exact setMem_inv hi (storeBytes_wf bs hi.memory_canonical 0)

/-- The faults of the ALU entry point are among those R111 allows, and its `ADD` writes a register only. -/
theorem aluInvoke_inv {s : State} (hi : s.Inv) (op : AluOp) (a b : Byte) : (aluInvoke op a b s).Inv := by
  rcases aluInvoke_cases op a b s with ⟨-, ht⟩ | ⟨hs, k, ht, hk⟩ | ⟨-, -, ra, rb, -, -, ht⟩
  · rwa [ht]
  · rw [ht]
    refine raise_inv hi hs ?_
    rcases hk with ⟨name, rfl, hn⟩ | ⟨c, rfl, hc⟩
    · simpa [FaultRecord.legalAt] using hn
    · exact legalAt_reg hc _
  · rw [ht]
    exact ⟨hi.memory_canonical, hi.pc_in_range, hi.fault_keeps_run, hi.fault_legal⟩

theorem preRun_inv {s : State} (h : PreRun s) : s.Inv := by
  induction h with
  | reset => exact resetHasInvariant
  | load _ hload ih => exact load_inv ih hload
  | alu op a b _ ih => exact aluInvoke_inv ih op a b

/-- Settles O52, by induction on how the state is reached. -/
theorem reachableStatesHaveInvariant : Obligations.ReachableStatesHaveInvariant := by
  intro s h
  induction h with
  | start hpre => exact preRun_inv hpre
  | step _ hstep ih => exact stepKeepsInvariant _ _ ih hstep

/-! ### The length of a run -/

/-- A run of the loop goes on where an earlier one ended. -/
theorem runLoop_add (m n : Nat) : ∀ s : State, runLoop (m + n) s = runLoop n (runLoop m s) := by
  induction m with
  | zero => intro s; rw [Nat.zero_add, runLoop]
  | succ m ih =>
    intro s
    cases hs : s.stopped with
    | true => rw [runLoop_stopped hs, runLoop_stopped hs, runLoop_stopped hs]
    | false =>
      obtain ⟨t, ht⟩ := step_total hs
      rw [Nat.succ_add, runLoop_succ ht, runLoop_succ ht, ih t]

/-- Every step but the last moves `pc` by at least 2, and the fetch beyond memory stops the core (R77). -/
theorem runLoop_stops {n : Nat} : ∀ {s : State}, 256 ≤ s.pc + 2 * n → (runLoop (n + 1) s).stopped = true := by
  induction n with
  | zero =>
    intro s hpc
    cases hs : s.stopped with
    | true => rwa [runLoop_stopped hs]
    | false =>
      have hstep := (step_of_form hs (.fetchBeyond (by omega))).1
      rw [runLoop_succ hstep, runLoop, raise_stopped]
  | succ n ih =>
    intro s hpc
    cases hs : s.stopped with
    | true => rwa [runLoop_stopped hs]
    | false =>
      obtain ⟨t, ht⟩ := step_total hs
      rw [runLoop_succ ht]
      cases hs' : t.stopped with
      | true => rwa [runLoop_stopped hs']
      | false =>
        obtain ⟨i, -, hne, -, hpc'⟩ := completed_of_running ht hs'
        have hwidth := two_le_width hne
        exact ih (by omega)

/-- Settles O49: 128 steps bring `pc` beyond memory, and a stopped core stays as it is. -/
theorem everyRunStopsWithin129Steps : Obligations.EveryRunStopsWithin129Steps := by
  intro s
  have hstop : (runLoop 129 s).stopped = true := runLoop_stops (n := 128) (by omega)
  refine ⟨hstop, fun n hn => ?_⟩
  obtain ⟨m, rfl⟩ := Nat.exists_eq_add_of_le hn
  rw [runLoop_add, runLoop_stopped hstop]

/-! ### What comes later -/

/-- A stopped core stays as it is whatever comes but reset (R23(d), D19). -/
theorem eq_of_later_of_stopped {s t : State} (h : Later s t) (hs : s.stopped = true) : t = s := by
  induction h with
  | refl => rfl
  | load _ hload ih =>
    subst ih
    rcases load_cases hload with ⟨-, hu⟩ | ⟨hrun, -⟩
    · exact hu
    · rw [hs] at hrun; cases hrun
  | alu op a b _ ih => rw [ih, aluInvoke_stopped hs]
  | step _ hstep ih =>
    subst ih
    exact absurd hstep (step_ne_next_of_stopped hs _)

theorem out_of_load {prog : List Nat} {s t : State} (h : load prog s = .next t) : t.out = s.out := by
  rcases eq_of_load h with rfl | ⟨bs, rfl⟩ <;> rfl

theorem out_of_aluInvoke (op : AluOp) (a b : Byte) (s : State) : (aluInvoke op a b s).out = s.out := by
  rcases aluInvoke_cases op a b s with ⟨-, ht⟩ | ⟨-, k, ht, -⟩ | ⟨-, -, ra, rb, -, -, ht⟩ <;> rw [ht] <;> rfl

/-- The output only grows (R23(e)): a step appends what its transactions emit, the environment nothing. -/
theorem output_grows {s t : State} (h : Later s t) : s.out <+: t.out := by
  induction h with
  | refl => exact List.prefix_rfl
  | load _ hload ih => rwa [out_of_load hload]
  | alu op a b _ ih => rwa [out_of_aluInvoke]
  | step _ hstep ih =>
    rw [(stepEffectsAreItsTransactions _ _ hstep).2]
    exact ih.trans (List.prefix_append _ _)

/-- Settles O53: a stopped core stays, by induction over what comes later, and the new output begins with the old one. -/
theorem stoppedCoreStandsAndOutputGrows : Obligations.StoppedCoreStandsAndOutputGrows := by
  intro s t h
  obtain ⟨emitted, hout⟩ := output_grows h
  refine ⟨fun hs => ?_, emitted, hout.symm⟩
  obtain rfl := eq_of_later_of_stopped h hs
  exact ⟨rfl, runLoop_stopped hs⟩

end Sys2Proof.Machine
end
